-- ==== Sys2Proof/Word.lean ====
section
/-! DEFINITION. The plain word types of B32C (spec 00_scope.md rules R5, R7, R8): bytes, the 16-byte value, the
26-character string, the ten random bytes. Bit 0 of a bit vector is its least significant bit (R7). -/

namespace Sys2Proof

/-- One byte, and one 8-bit character code (R21, R22). -/
abbrev Byte := BitVec 8

/-- A value: 16 bytes, index 0 the most significant (R8, R21). -/
abbrev Value := Vector Byte 16

/-- A 26-character string, index 0 the first character (R8, R22). -/
abbrev Suffix := Vector Byte 26

/-- The 26 groups of 5 bits, group 0 the most significant (R94). -/
abbrev Groups := Vector (BitVec 5) 26

/-- The ten bytes of one random answer, `r[0]` to `r[9]` (R28). -/
abbrev RandomBytes := Vector Byte 10

end Sys2Proof
end

