-- ==== Sys2Proof/Syntax.lean ====
section
/-! DEFINITION. The six commands of B32C (spec 30_encoding.md rule R65), one constructor per row of
spec/opcode_table.json. The two immediates have the widths their packet formats give them (R60, R71), so no command
can carry an operand of a wrong length (R182). -/

namespace Sys2Proof

/-- A command (R65). -/
inductive Instr where
  /-- LDV, format V: `VAL <- imm_v` (R80). -/
  | ldv (immV : Value)
  /-- LDS, format S: `SYM <- imm_s` (R81). -/
  | lds (immS : Suffix)
  /-- ENC, format N: `SYM <- encode(VAL)` (R95). -/
  | enc
  /-- DEC, format N: `VAL <- decode(SYM)`, or a tagged result (R96). -/
  | dec
  /-- GEN, format N: `VAL <- pack(draw ClockSource(), draw RandomSource())` (R122). -/
  | gen
  /-- CHK7, format N: `STAT.P <- is_v7(VAL)` (R129). -/
  | chk7
  deriving DecidableEq, Repr

end Sys2Proof
end

