-- ==== Sys2Proof/Decode.lean ====
section
/-! DEFINITION. Command packets (spec 30_encoding.md rules R60 to R67): the length an opcode byte implies, the decoder
from bytes to commands, the encoder from commands to bytes, and the reading of a word numbered as
spec/opcode_table.json numbers it. -/

namespace Sys2Proof

/-- The length in bytes of the packet that opcode byte `op` begins; none for an illegal opcode (R64, R65). -/
def packetLength (op : Byte) : Option Nat :=
  match op.toNat with
  | 1 => some 17
  | 2 => some 27
  | 3 => some 1
  | 4 => some 1
  | 5 => some 1
  | 6 => some 1
  | _ => none

/-- The first `n` bytes of a stream in stream order, index 0 the first one sent, and what follows them (R62, R63);
none while fewer than `n` bytes are there. -/
def takeVector (n : Nat) (bytes : List Byte) : Option (Vector Byte n × List Byte) :=
  if h : n ≤ bytes.length then
    some (⟨(bytes.take n).toArray, by simp [h]⟩, bytes.drop n)
  else
    none

/-- What the decoder reads at the head of a byte stream. -/
inductive Decoded where
  /-- A whole packet, and the bytes after it (R64). -/
  | command (i : Instr) (rest : List Byte)
  /-- An opcode byte that spells no command; nothing after it is consumed (R64, R66). -/
  | illegalOpcode (op : Byte) (rest : List Byte)
  /-- No byte yet, or a legal opcode byte whose payload has not all arrived (R70). -/
  | incomplete
  deriving DecidableEq, Repr

/-- A command with a payload, once the payload is whole (R70). -/
def decodePayload (n : Nat) (make : Vector Byte n → Instr) (payload : List Byte) : Decoded :=
  match takeVector n payload with
  | some (v, rest) => .command (make v) rest
  | none => .incomplete

/-- The decoder, total on every byte stream: the opcode byte alone decides (R60, R61, R64, R65). -/
def decode : List Byte → Decoded
  | [] => .incomplete
  | op :: bytes =>
    match op.toNat with
    | 1 => decodePayload 16 .ldv bytes
    | 2 => decodePayload 26 .lds bytes
    | 3 => .command .enc bytes
    | 4 => .command .dec bytes
    | 5 => .command .gen bytes
    | 6 => .command .chk7 bytes
    | _ => .illegalOpcode op bytes

/-- The opcode byte of a command (R65). -/
def opcodeOf : Instr → Byte
  | .ldv _ => 0x01#8
  | .lds _ => 0x02#8
  | .enc => 0x03#8
  | .dec => 0x04#8
  | .gen => 0x05#8
  | .chk7 => 0x06#8

/-- The payload bytes of a command, index 0 first (R62, R63). -/
def payloadOf : Instr → List Byte
  | .ldv immV => immV.toList
  | .lds immS => immS.toList
  | .enc => []
  | .dec => []
  | .gen => []
  | .chk7 => []

/-- The packet of a command: opcode byte, then payload (R60). -/
def encode (i : Instr) : List Byte := opcodeOf i :: payloadOf i

/-- A packet as one number with byte 0 in the most significant place: the long word of rule R61. -/
def longWord (bytes : List Byte) : Nat := bytes.foldl (fun acc b => acc * 256 + b.toNat) 0

/-- Byte `k` of a word whose first byte is its least significant one (the opcode table's numbering). -/
def tableByte (w k : Nat) : Byte := BitVec.ofNat 8 (w >>> (8 * k))

/-- The bytes of the packet whose bits are `w`, numbered as the opcode table numbers them, bits from `nbits` up being
zero: as many bytes as the opcode byte implies, and the opcode byte alone where it is illegal (R64). -/
def tableBytes (nbits w : Nat) : List Byte :=
  let v := w % 2 ^ nbits
  (List.range ((packetLength (tableByte v 0)).getD 1)).map (tableByte v)

/-- The command this decoder reads from the table word `w`, none where it refuses. -/
def decodeTableWord (nbits w : Nat) : Option Instr :=
  match decode (tableBytes nbits w) with
  | .command i _ => some i
  | .illegalOpcode _ _ => none
  | .incomplete => none

end Sys2Proof
end

