-- ==== Sys2Proof/Config.lean ====
section
/-! DEFINITION. What the spec fixes for the machine (00_scope.md rule R5) and what it leaves free: the answers of the
ClockSource and the RandomSource (R6, R28) and, for the host layer, the form of a reported pattern (R143), which are
opaque constants, so that no proof can see a value of theirs. -/

namespace Sys2Proof

/-- FIRST_MAX (R5): the largest legal numeric value of the first symbol. -/
def Config.firstMax : Nat := 7

/-- VERSION_NIBBLE (R5). -/
def Config.versionNibble : BitVec 4 := 0b0111#4

/-- VARIANT_BITS (R5). -/
def Config.variantBits : BitVec 2 := 0b10#2

/-- FREE VALUE (log entry 1): the answer of port CLK_MS at the `n`-th draw, 48 bits, under no law (R28, R131). -/
opaque Config.clockSource : Nat → BitVec 48

/-- FREE VALUE (log entry 1): the answer of port RND at the `n`-th draw, 80 bits, under no law (R28, R125). -/
opaque Config.randomSource : Nat → BitVec 80

/-- FREE VALUE (log entry 13): the form in which the host layer reports the pattern that the prefix `p` violates, a
parameter of the host layer (R143; 93_implementation_defined.md U8). -/
opaque Config.violatedPattern : List Byte → List Byte

end Sys2Proof
end

