-- ==== Sys2Proof/Machine/State.lean ====
section
/-! DEFINITION. The state of B32C as plain data: the three registers of spec 10_state.md rule R20, the bytes of an
unfinished packet (30_encoding.md rule R70), and the model's own environment fields (what the host does next, the
number of the next draw); the reasons a step can stop; the state after reset (R30). -/

namespace Sys2Proof.Machine

/-- What the host does at the block's inputs, one event at a time (45_host_contract.md rule R154). -/
inductive HostInput where
  /-- The byte `b` is presented on the command input (R60). -/
  | byte (b : Byte)
  /-- RST is asserted and released again; `presented` are the bytes presented meanwhile, of which the block consumes
  none (R210). Log entry 5. -/
  | rst (presented : List Byte)
  deriving DecidableEq, Repr

/-- The taxonomy of kinds (R24). The block produces `ok`, `invalidSuffixAlphabet` and `suffixOverflow` only (R182);
the others are the host layer's. -/
inductive Kind where
  | ok
  | invalidInputType
  | invalidLength
  | invalidCase
  | leadingUnderscore
  | invalidPrefixType
  | prefixTooLong
  | invalidPrefixFormat
  | invalidSuffixLength
  | invalidSuffixAlphabet
  | suffixOverflow
  | invalidValueLength
  | decodeFailure
  deriving DecidableEq, Repr

/-- The state of the machine. `val`, `sym` and `stat` are the whole architectural state (R20). -/
structure State where
  /-- VAL, 16 bytes, `VAL[0]` the most significant (R21). -/
  val : Vector Byte 16
  /-- SYM, 26 characters, `SYM[0]` the first (R22). -/
  sym : Vector Byte 26
  /-- STAT, the 32-bit status register (R23); its fields are read through Flags.lean. -/
  stat : BitVec 32
  /-- The bytes of the packet being received, oldest first; empty while the block is idle (R70). Log entry 4. -/
  received : List Byte
  /-- The MODEL'S OWN: what the host does next, oldest first (R217). Log entry 3. -/
  input : List HostInput
  /-- The MODEL'S OWN: how many draws the oracles have answered; no part of the block (R27, R28). Log entry 1. -/
  draws : Nat
  deriving DecidableEq, Repr

/-- Why a step stops. -/
inductive Fault where
  /-- The block is faulted (FLT = 1) and no reset is pending: it consumes no byte and executes no command (R180,
  R186, R187). `op` is STAT.FOP. Raised by `step`, and by every meaning asked to run while FLT = 1 (R25). Safe: the
  fault entry itself is a next state, and the spec gives a faulted block no further step but reset. -/
  | illegalCommand (op : Byte)
  deriving DecidableEq, Repr

/-- Why an instruction has no meaning. The spec knows no refusal (R180), and no step of this model gives one. -/
inductive Refusal where
  /-- Raised by nothing: every row of the opcode table has its meaning. Safe. -/
  | notModelled (mnemonic : String)
  deriving DecidableEq, Repr

/-- The machine right after reset (R30): VAL sixteen bytes 0x00, SYM twenty-six characters `0` (0x30), STAT zero, the
block idle (R210). The environment fields are empty and zero (log entries 2 and 3). -/
def State.reset : State where
  val := Vector.replicate 16 0x00#8
  sym := Vector.replicate 26 0x30#8
  stat := 0x00000000#32
  received := []
  input := []
  draws := 0

end Sys2Proof.Machine
end

