-- ==== Sys2Proof/Machine/Flags.lean ====
section
/-! DEFINITION. STAT: its fields, the one place that builds a STAT word, the codes of KIND (spec 10_state.md rules R23,
R24, R33), and the computation of the flag P (42_v7_packer.md rule R128). -/

namespace Sys2Proof.Machine

/-- STAT.KIND, bits 3:0 (R23). -/
def statKind (w : BitVec 32) : BitVec 4 := w.extractLsb' 0 4

/-- STAT.P, bit 4 (R23, R25). -/
def statP (w : BitVec 32) : Bool := w.getLsbD 4

/-- STAT.FLT, bit 7 (R23, R25). -/
def statFlt (w : BitVec 32) : Bool := w.getLsbD 7

/-- STAT.POS, bits 12:8 (R23). -/
def statPos (w : BitVec 32) : BitVec 5 := w.extractLsb' 8 5

/-- STAT.INFO, bits 23:16 (R23). -/
def statInfo (w : BitVec 32) : Byte := w.extractLsb' 16 8

/-- STAT.FOP, bits 31:24 (R23). -/
def statFop (w : BitVec 32) : Byte := w.extractLsb' 24 8

/-- The stored bits behind the hard-wired fields 6:5 and 15:13, low field first; zero in every reachable state (R23). -/
def statReserved (w : BitVec 32) : BitVec 5 := w.extractLsb' 13 3 ++ w.extractLsb' 5 2

/-- A STAT word from its fields, the hard-wired bits 15:13 and 6:5 being 0 (R23): the only builder of STAT words. -/
def statWord (fop info : Byte) (pos : BitVec 5) (flt p : Bool) (kind : BitVec 4) : BitVec 32 :=
  fop ++ info ++ 0b000#3 ++ pos ++ BitVec.ofBool flt ++ 0b00#2 ++ BitVec.ofBool p ++ kind

/-- STAT after a completed command: KIND, P, POS and INFO are written together, FLT and FOP are left alone (R33). -/
def statCompleted (w : BitVec 32) (kind : BitVec 4) (p : Bool) (pos : BitVec 5) (info : Byte) : BitVec 32 :=
  statWord (statFop w) info pos (statFlt w) p kind

/-- STAT after the fault IllegalCommand on opcode byte `op`: FLT and FOP are written, the rest is left alone (R186). -/
def statFaulted (w : BitVec 32) (op : Byte) : BitVec 32 :=
  statWord op (statInfo w) (statPos w) true (statP w) (statKind w)

/-- STAT as it reads: the hard-wired bits read 0 (R23, R29). Log entry 9. -/
def statRead (w : BitVec 32) : BitVec 32 :=
  statWord (statFop w) (statInfo w) (statPos w) (statFlt w) (statP w) (statKind w)

/-- The code of a kind in STAT.KIND (R24). -/
def kindCode : Kind → BitVec 4
  | .ok => 0#4
  | .invalidInputType => 1#4
  | .invalidLength => 2#4
  | .invalidCase => 3#4
  | .leadingUnderscore => 4#4
  | .invalidPrefixType => 5#4
  | .prefixTooLong => 6#4
  | .invalidPrefixFormat => 7#4
  | .invalidSuffixLength => 8#4
  | .invalidSuffixAlphabet => 9#4
  | .suffixOverflow => 10#4
  | .invalidValueLength => 11#4
  | .decodeFailure => 12#4

/-- `is_v7`: the high nibble of byte 6 is 0111 and the top two bits of byte 8 are 10 (R128). -/
def isV7 (a : Value) : Bool :=
  a[6].extractLsb' 4 4 == Config.versionNibble && a[8].extractLsb' 6 2 == Config.variantBits

end Sys2Proof.Machine
end

