-- ==== Sys2Proof/Machine/Ops.lean ====
section
/-! DEFINITION. The named operations of the machine: the views of the registers and the output ports (spec 00_scope.md
rule R9, 10_state.md rule R29), the register writes, the completion of a command (R33), the entry into the fault and
the return from it by reset (60_exceptions.md rules R186, R187; 70_reset_and_hazards.md rule R210), and the taking of
the next packet from the command input (30_encoding.md rules R60, R64, R70). -/

namespace Sys2Proof.Machine

/-- `{d[0], d[1], ...}`: the number that digits of `w` bits spell when they are concatenated, the first digit in the most
significant place (R7). -/
def concatDigits {w : Nat} (digits : List (BitVec w)) : Nat := digits.foldl (fun n d => n * 2 ^ w + d.toNat) 0

/-- `V128(VAL) = {VAL[0], ..., VAL[15]}`: the 128-bit number of a value (R9). -/
def v128 (a : Value) : BitVec 128 := BitVec.ofNat 128 (concatDigits a.toList)

/-- `bytes16(n)`: the 16 bytes of a 128-bit number, `VAL[i] = n[127-8i : 120-8i]`, leading zero bytes kept (R9). -/
def bytes16 (n : BitVec 128) : Value := Vector.ofFn fun i => n.extractLsb' (120 - 8 * i.val) 8

/-- `{SYM[0], SYM[1], ..., SYM[25]}`: the 208-bit number of a string (R29). -/
def s208 (s : Suffix) : BitVec 208 := BitVec.ofNat 208 (concatDigits s.toList)

/-- Port VAL_OUT (R29). -/
def valOut (s : State) : BitVec 128 := v128 s.val

/-- Port SYM_OUT (R29). -/
def symOut (s : State) : BitVec 208 := s208 s.sym

/-- Port STAT_OUT (R29). -/
def statOut (s : State) : BitVec 32 := statRead s.stat

/-- The block is faulted: STAT.FLT is set (R25). -/
def faulted (s : State) : Bool := statFlt s.stat

/-- `VAL <- a`, all 16 bytes (R21). -/
def writeVal (a : Value) (s : State) : State := { s with val := a }

/-- `SYM <- a`, all 26 characters (R22). -/
def writeSym (a : Suffix) (s : State) : State := { s with sym := a }

/-- A command completes: KIND, P, POS and INFO are written together (R33). -/
def complete (kind : Kind) (p : Bool) (pos : BitVec 5) (info : Byte) (s : State) : State :=
  { s with stat := statCompleted s.stat (kindCode kind) p pos info }

/-- A command completes with KIND = 0 and nothing else to report. -/
def completeOk (s : State) : State := complete .ok false 0#5 0#8 s

/-- The oracles have answered one draw each (R28, R122). -/
def advanceDraws (s : State) : State := { s with draws := s.draws + 1 }

/-- A command takes effect only while FLT = 0; a set FLT stops execution (R25, R33, R185). Log entry 6. -/
def whileRunning (s t : State) : Host.Outcome State Fault Refusal :=
  if faulted s then .fault (.illegalCommand (statFop s.stat)) else .next t

/-- TAKING THE EXCEPTION: fault entry of IllegalCommand on opcode byte `op` (R186). Nothing else is saved or changed. -/
def takeFault (op : Byte) (s : State) : State := { s with stat := statFaulted s.stat op }

/-- Reset, the only return from the fault (R187, R210): every register takes its reset value and the bytes of a
half-received packet are forgotten; `rest` is what the host does next, and the oracles go on (R212). -/
def applyReset (rest : List HostInput) (s : State) : State :=
  { State.reset with input := rest, draws := s.draws }

/-- The block has taken a packet, or an illegal opcode byte, and turns to what follows it in the stream (R60). -/
def consume (rest : List HostInput) (s : State) : State := { s with received := [], input := rest }

/-- The block has taken the bytes of an unfinished packet and waits for the others (R70). -/
def holdReceived (bytes : List Byte) (s : State) : State := { s with received := bytes, input := [] }

/-- The bytes the host presents before it next asserts RST, and what it does from then on. -/
def splitAtReset : List HostInput → List Byte × List HostInput
  | [] => ([], [])
  | .byte b :: more => (b :: (splitAtReset more).1, (splitAtReset more).2)
  | .rst presented :: more => ([], .rst presented :: more)

/-- What the host does after it next asserts RST; none if it never does. The bytes before are passed over: a faulted
block consumes none of them (R186). Log entry 5. -/
def afterReset (input : List HostInput) : Option (List HostInput) :=
  match (splitAtReset input).2 with
  | .rst _ :: more => some more
  | .byte _ :: _ => none
  | [] => none

/-- What the block meets at its inputs. -/
inductive Arrival where
  /-- RST is asserted, and is the next thing that has an effect (R210). -/
  | reset (rest : List HostInput)
  /-- A whole packet (R60, R64). -/
  | command (i : Instr) (rest : List HostInput)
  /-- An opcode byte that spells no command (R66). -/
  | illegal (op : Byte) (rest : List HostInput)
  /-- The stream ends inside a packet, whose bytes so far are `bytes` (R70). -/
  | unfinished (bytes : List Byte)
  /-- Nothing: the block is idle and no byte is offered. -/
  | nothing
  /-- The block is faulted and no reset is to come (R186). -/
  | stopped
  deriving DecidableEq, Repr

/-- A packet cut short by what the host does next: by RST, which forgets it (R210, R211), or by the end of the stream,
which leaves the block waiting (R70). -/
def arrivalCutShort (bytes : List Byte) : List HostInput → Arrival
  | .rst _ :: more => .reset more
  | .byte _ :: _ => .unfinished bytes
  | [] => if bytes = [] then .nothing else .unfinished bytes

/-- What a block that is not faulted meets: the bytes already received, then those presented before the next RST, are
cut into a packet from the left (R64, R217). -/
def arrivalRunning (received : List Byte) (input : List HostInput) : Arrival :=
  match decode (received ++ (splitAtReset input).1) with
  | .command i rest => .command i (rest.map .byte ++ (splitAtReset input).2)
  | .illegalOpcode op rest => .illegal op (rest.map .byte ++ (splitAtReset input).2)
  | .incomplete => arrivalCutShort (received ++ (splitAtReset input).1) (splitAtReset input).2

/-- What a faulted block meets: reset or nothing (R185 (1), R187). -/
def arrivalFaulted (input : List HostInput) : Arrival :=
  match afterReset input with
  | some rest => .reset rest
  | none => .stopped

/-- What the block meets at its inputs; a set FLT beats everything but reset (R185). -/
def arrival (s : State) : Arrival :=
  if faulted s then arrivalFaulted s.input else arrivalRunning s.received s.input

/-- The bytes `bytes` placed in front of whatever the host does next, the block being at a packet boundary. -/
def placePacket (bytes : List Byte) (s : State) : State :=
  { s with received := [], input := bytes.map .byte ++ s.input }

/-- The host sends bytes, after everything it has done so far (R154). -/
def hostSend (bytes : List Byte) (s : State) : State := { s with input := s.input ++ bytes.map .byte }

/-- The host asserts RST and releases it, presenting `presented` meanwhile (R154, R210). -/
def hostAssertReset (presented : List Byte) (s : State) : State := { s with input := s.input ++ [.rst presented] }

end Sys2Proof.Machine
end

