-- ==== Sys2Proof/Machine/Operands.lean ====
section
/-! DEFINITION. Operand forms. A command has at most one operand: the value operand of LDV (spec 30_encoding.md rule
R62), the string operand of LDS (R63), or, for GEN, the answers of the two input ports (10_state.md rule R28). There is
no register number, address or mode (R71). -/

namespace Sys2Proof.Machine

/-- The value operand: `imm_v[i]` becomes `VAL[i]`, with no byte extended, scaled, shifted or checked (R62). -/
def valueOperand (immV : Value) : Value := Vector.ofFn fun i => immV[i]

/-- The string operand: `imm_s[k]` becomes `SYM[k]`, with no byte checked (R63). -/
def stringOperand (immS : Suffix) : Suffix := Vector.ofFn fun k => immS[k]

/-- The ten bytes on port RND: `r[0]` in RND[79:72] down to `r[9]` in RND[7:0] (R28, R123). -/
def portBytes (rnd : BitVec 80) : RandomBytes := Vector.ofFn fun i => rnd.extractLsb' (72 - 8 * i.val) 8

/-- `draw ClockSource()`: the answer on port CLK_MS at this draw, a free value (R28). -/
def clockAnswer (s : State) : BitVec 48 := Config.clockSource s.draws

/-- `draw RandomSource()`: the ten bytes answered at this draw, a free value (R28). -/
def randomAnswer (s : State) : RandomBytes := portBytes (Config.randomSource s.draws)

end Sys2Proof.Machine
end

