-- ==== Sys2Proof/Machine/Codec.lean ====
section
/-! DEFINITION. The Base32 codec, commands ENC and DEC, and the functions they are made of (spec
41_base32_codec.md). -/

namespace Sys2Proof.Machine

/-- The alphabet, index to the 8-bit code of its symbol (R90). -/
def alphabet : Vector Byte 32 :=
  #v[0x30#8, 0x31#8, 0x32#8, 0x33#8, 0x34#8, 0x35#8, 0x36#8, 0x37#8,
     0x38#8, 0x39#8, 0x61#8, 0x62#8, 0x63#8, 0x64#8, 0x65#8, 0x66#8,
     0x67#8, 0x68#8, 0x6A#8, 0x6B#8, 0x6D#8, 0x6E#8, 0x70#8, 0x71#8,
     0x72#8, 0x73#8, 0x74#8, 0x76#8, 0x77#8, 0x78#8, 0x79#8, 0x7A#8]

/-- `sym5(g)`: the symbol of index `g` (R91). -/
def sym5 (g : BitVec 5) : Byte := alphabet[g.toFin]

/-- `val5(c)`: the index whose symbol is `c`, none where `c` is no symbol (R92). -/
def val5 (c : Byte) : Option (BitVec 5) := (alphabet.toList.findIdx? (· == c)).map (BitVec.ofNat 5)

/-- `val5(c)` is not `invalid` (R92). -/
def isSymbol (c : Byte) : Bool := (val5 c).isSome

/-- `N = zext_130(V128(a))`: the value behind its two implicit zero bits (R93). -/
def widened (a : Value) : BitVec 130 := (v128 a).setWidth 130

/-- Group `k` of the 130-bit quantity, `N[129-5k : 125-5k]` (R94). -/
def group (n : BitVec 130) (k : Nat) : BitVec 5 := n.extractLsb' (125 - 5 * k) 5

/-- `encode(a)`, 16 bytes to 26 characters (R95). -/
def codecEncode (a : Value) : Suffix := Vector.ofFn fun k => sym5 (group (widened a) k.val)

/-- Reassembly: `N = {g[0], ..., g[25]}`, 130 bits (R99). -/
def reassembled (g : Groups) : BitVec 130 := BitVec.ofNat 130 (concatDigits g.toList)

/-- `bytes16(N[127:0])`: the two leading bits are dropped (R99). -/
def valueOfGroups (g : Groups) : Value := bytes16 ((reassembled g).extractLsb' 0 128)

/-- What `decode(s)` returns (R96). -/
inductive Decoding where
  /-- Success: the 16 bytes. -/
  | value (a : Value)
  /-- InvalidSuffixAlphabet: the lowest index that holds no symbol, and the character there. -/
  | invalidSuffixAlphabet (position : Fin 26) (character : Byte)
  /-- SuffixOverflow: the first character, a symbol above `7`. -/
  | suffixOverflow (firstSymbol : Byte)
  deriving DecidableEq, Repr

/-- The lowest index of a character that is no symbol (R97). -/
def firstInvalid (s : Suffix) : Option (Fin 26) := (List.finRange 26).find? fun k => !isSymbol s[k]

/-- The groups of a string of symbols (R96); read only after the alphabet check. -/
def groupsOf (s : Suffix) : Groups := Vector.ofFn fun k => (val5 s[k]).getD 0#5

/-- `decode(s)`, 26 characters to 16 bytes or a tagged failure: alphabet, then overflow, then reassembly (R96, R97,
R98, R99). -/
def codecDecode (s : Suffix) : Decoding :=
  match firstInvalid s with
  | some k => .invalidSuffixAlphabet k s[k]
  | none =>
    if Config.firstMax < (groupsOf s)[0].toNat then .suffixOverflow s[0] else .value (valueOfGroups (groupsOf s))

/-- The writes of DEC for what `decode(SYM)` returned (R96, R188). -/
def applyDecoding (d : Decoding) (s : State) : State :=
  match d with
  | .value a => completeOk (writeVal a s)
  | .invalidSuffixAlphabet k c => complete .invalidSuffixAlphabet false (BitVec.ofNat 5 k.val) c s
  | .suffixOverflow c => complete .suffixOverflow false 0#5 c s

/-- ENC: `SYM <- encode(VAL)` (R95). -/
def execEnc (s : State) : Host.Outcome State Fault Refusal :=
  whileRunning s (completeOk (writeSym (codecEncode s.val) s))

/-- DEC: `VAL <- decode(SYM)`, or a tagged result in STAT with VAL unchanged (R96). -/
def execDec (s : State) : Host.Outcome State Fault Refusal :=
  whileRunning s (applyDecoding (codecDecode s.sym) s)

end Sys2Proof.Machine
end

