-- ==== Sys2Proof/Machine/Packer.lean ====
section
/-! DEFINITION. The version-7 packer, commands GEN and CHK7 (spec 42_v7_packer.md). -/

namespace Sys2Proof.Machine

/-- `pack(ts, r)` (R120, R123). -/
def pack (ts : BitVec 48) (r : RandomBytes) : Value :=
  #v[ts.extractLsb' 40 8, ts.extractLsb' 32 8, ts.extractLsb' 24 8,
     ts.extractLsb' 16 8, ts.extractLsb' 8 8, ts.extractLsb' 0 8,
     (r[0] &&& 0x0F#8) ||| 0x70#8,
     r[1],
     (r[2] &&& 0x3F#8) ||| 0x80#8,
     r[3], r[4], r[5], r[6], r[7], r[8], r[9]]

/-- The writes of GEN, given the two answers (R122). -/
def generated (ts : BitVec 48) (r : RandomBytes) (s : State) : State := completeOk (writeVal (pack ts r) s)

/-- GEN: `VAL <- pack(draw ClockSource(), draw RandomSource())`, each drawn exactly once (R122). -/
def execGen (s : State) : Host.Outcome State Fault Refusal :=
  whileRunning s (advanceDraws (generated (clockAnswer s) (randomAnswer s) s))

/-- CHK7: `STAT.P <- is_v7(VAL)` (R129). -/
def execChk7 (s : State) : Host.Outcome State Fault Refusal :=
  whileRunning s (complete .ok (isV7 s.val) 0#5 0#8 s)

end Sys2Proof.Machine
end

