-- ==== Sys2Proof/Machine/Transfer.lean ====
section
/-! DEFINITION. The operand transfers LDV and LDS (spec 40_transfer.md). -/

namespace Sys2Proof.Machine

/-- LDV: `VAL <- imm_v` (R80). -/
def execLdv (immV : Value) (s : State) : Host.Outcome State Fault Refusal :=
  whileRunning s (completeOk (writeVal (valueOperand immV) s))

/-- LDS: `SYM <- imm_s` (R81). -/
def execLds (immS : Suffix) (s : State) : Host.Outcome State Fault Refusal :=
  whileRunning s (completeOk (writeSym (stringOperand immS) s))

end Sys2Proof.Machine
end

