-- ==== Sys2Proof/Machine/Dispatch.lean ====
section
/-! DEFINITION. One arm per command (spec 30_encoding.md rule R65). -/

namespace Sys2Proof.Machine

def exec (i : Instr) (s : State) : Host.Outcome State Fault Refusal :=
  match i with
  | .ldv immV => Sys2Proof.Machine.execLdv immV s
  | .lds immS => Sys2Proof.Machine.execLds immS s
  | .enc => Sys2Proof.Machine.execEnc s
  | .dec => Sys2Proof.Machine.execDec s
  | .gen => Sys2Proof.Machine.execGen s
  | .chk7 => Sys2Proof.Machine.execChk7 s

end Sys2Proof.Machine
end

