-- ==== Sys2Proof/Machine/Step.lean ====
section
/-! DEFINITION. One step of the block: one packet (spec 00_scope.md rule R11, 92_eei_decisions.md D1), or the fault
entry, or reset, or the taking of the bytes of an unfinished packet; and the placing of a packet where the next step
takes it. -/

namespace Sys2Proof.Machine

/-- One step (R12, R217). Idle with nothing offered, and waiting with nothing more offered, the block stays as it is
(R70, R216; log entry 7). -/
def step (s : State) : Host.Outcome State Fault Refusal :=
  match arrival s with
  | .reset rest => .next (applyReset rest s)
  | .command i rest => exec i (consume rest s)
  | .illegal op rest => .next (takeFault op (consume rest s))
  | .unfinished bytes => .next (holdReceived bytes s)
  | .nothing => .next s
  | .stopped => .fault (.illegalCommand (statFop s.stat))

/-- `s` with the packet of the table word `w` in front of the host's input, at a packet boundary (log entry 8). -/
def State.withFetchWord (s : State) (nbits w : Nat) : State := placePacket (tableBytes nbits w) s

end Sys2Proof.Machine
end

