-- ==== Sys2Proof/Machine/Assembler.lean ====
section
/-! DEFINITION. The text form of commands, its lines as data (spec 30_encoding.md rule R68), and the pseudo-instructions
(R69). Notation only: the block sees the bytes these functions give (92_eei_decisions.md D27). What the spec leaves
open of lines is log entry 12. -/

namespace Sys2Proof.Machine

/-- A line of assembly, its operand as written (R68). -/
inductive AsmLine where
  /-- `LDV 0xHH...H`: the hexadecimal digits after `0x`. -/
  | ldvHex (digits : List Char)
  /-- `LDS` with a quoted string: the characters between the quotes. -/
  | ldsText (chars : List Char)
  /-- `LDS [b0, b1, ..., b25]`: the byte literals. -/
  | ldsBytes (bytes : List Byte)
  | enc
  | dec
  | gen
  | chk7
  /-- `.byte 0xHH`: a raw byte in the stream. -/
  | rawByte (b : Byte)
  /-- `; text`: a comment to the end of the line. -/
  | comment (text : List Char)
  deriving DecidableEq, Repr

/-- The value of a hexadecimal digit of either case (R68). -/
def hexDigit (c : Char) : Option (BitVec 4) :=
  if 48 ≤ c.toNat ∧ c.toNat ≤ 57 then some (BitVec.ofNat 4 (c.toNat - 48))
  else if 97 ≤ c.toNat ∧ c.toNat ≤ 102 then some (BitVec.ofNat 4 (c.toNat - 87))
  else if 65 ≤ c.toNat ∧ c.toNat ≤ 70 then some (BitVec.ofNat 4 (c.toNat - 55))
  else none

/-- The bytes that pairs of hexadecimal digits spell, most significant digit first; none where a character is no digit
or one is left over. -/
def hexBytes : List Char → Option (List Byte)
  | [] => some []
  | [_] => none
  | hi :: lo :: more =>
    match hexDigit hi, hexDigit lo, hexBytes more with
    | some h, some l, some bytes => some ((h ++ l) :: bytes)
    | _, _, _ => none

/-- The 8-bit code of a character; none above 8 bits (R63, R68). -/
def charByte (c : Char) : Option Byte := if c.toNat < 256 then some (BitVec.ofNat 8 c.toNat) else none

/-- The codes of the characters of a string. -/
def charBytes : List Char → Option (List Byte)
  | [] => some []
  | c :: more =>
    match charByte c, charBytes more with
    | some b, some bytes => some (b :: bytes)
    | _, _ => none

/-- A packet with a payload of exactly `n` bytes; none is an assembly error (R68). -/
def assemblePayload (n : Nat) (make : Vector Byte n → Instr) (payload : Option (List Byte)) : Option (List Byte) :=
  match payload with
  | none => none
  | some bytes =>
    match takeVector n bytes with
    | some (v, []) => some (encode (make v))
    | _ => none

/-- The bytes a line puts in the stream; none is an assembly error (R68). -/
def assembleLine : AsmLine → Option (List Byte)
  | .ldvHex digits => assemblePayload 16 .ldv (hexBytes digits)
  | .ldsText chars => assemblePayload 26 .lds (charBytes chars)
  | .ldsBytes bytes => assemblePayload 26 .lds (some bytes)
  | .enc => some (encode .enc)
  | .dec => some (encode .dec)
  | .gen => some (encode .gen)
  | .chk7 => some (encode .chk7)
  | .rawByte b => some [b]
  | .comment _ => some []

/-- The pseudo-instructions (R69). -/
inductive Pseudo where
  | encodeValue (v : Value)
  | decodeString (s : Suffix)
  | newId
  deriving DecidableEq, Repr

/-- The expansion of a pseudo-instruction (R69). -/
def expand : Pseudo → List Instr
  | .encodeValue v => [.ldv v, .enc]
  | .decodeString s => [.lds s, .dec]
  | .newId => [.gen, .enc]

end Sys2Proof.Machine
end

