-- ==== Sys2Proof/Machine/HostLayer.lean ====
section
/-! DEFINITION. The host layer: the software around the block, transcribed by spec 45_host_contract.md (rules R140 to
R155) and outside the hardware (00_scope.md rule R4). Nothing here is a step of the machine; these are plain functions
over the codec's `encode` and `decode`. What the spec leaves to the host layer is log entry 10. -/

namespace Sys2Proof.Machine

/-- An argument of a host function: a string of 8-bit character codes, a symbolic tag, which is no string but stands for
one (R143), or something else that is no string (R146 step 1). -/
inductive HostArg where
  | text (s : List Byte)
  | symbol (name : List Byte)
  | notText
  deriving DecidableEq, Repr

/-- A tagged failure: kind, offending value and, where applicable, position and first symbol (R152) or the pattern
violated (R143). -/
structure HostFailure where
  kind : Kind
  offending : HostArg
  position : Option Nat
  firstSymbol : Option Byte
  pattern : Option (List Byte)
  deriving DecidableEq, Repr

/-- ParsedTypeId, with the four fields of R140 (90_conflicts.md C3). -/
structure ParsedTypeId where
  typePrefix : List Byte
  suffix : Suffix
  value : Value
  typeid : List Byte
  deriving DecidableEq, Repr

/-- The code of the underscore. -/
def underscore : Byte := 0x5F#8

/-- A lower-case letter. -/
def isLowerLetter (c : Byte) : Bool := decide (0x61 ≤ c.toNat ∧ c.toNat ≤ 0x7A)

/-- An upper-case letter. -/
def isUpperLetter (c : Byte) : Bool := decide (0x41 ≤ c.toNat ∧ c.toNat ≤ 0x5A)

/-- A failure that carries its kind and offending value only. -/
def failWith (kind : Kind) (offending : HostArg) : HostFailure :=
  { kind := kind, offending := offending, position := none, firstSymbol := none, pattern := none }

/-- The prefix grammar, the bound on the length apart (R143). -/
def prefixGrammar (p : List Byte) : Bool :=
  match p with
  | [] => true
  | c :: _ =>
    isLowerLetter c && isLowerLetter (p.getLast?.getD underscore) && p.all fun d => isLowerLetter d || d == underscore

/-- The prefix validator: it accepts only strings, the first failing rule wins, and a format failure carries the pattern
violated (R143). -/
def validatePrefix (arg : HostArg) : Except HostFailure (List Byte) :=
  match arg with
  | .notText => .error (failWith .invalidPrefixType arg)
  | .symbol _ => .error (failWith .invalidPrefixType arg)
  | .text p =>
    if 63 < p.length then .error (failWith .prefixTooLong arg)
    else if prefixGrammar p then .ok p
    else .error { failWith .invalidPrefixFormat arg with pattern := some (Config.violatedPattern p) }

/-- `assemble(prefix, suffix)` (R144). -/
def assemble (p suffix : List Byte) : List Byte := if p = [] then suffix else p ++ underscore :: suffix

/-- `split(s)`: partition on the last underscore (R145). -/
def split : List Byte → List Byte × List Byte
  | [] => ([], [])
  | c :: more =>
    if more.contains underscore then (c :: (split more).1, (split more).2)
    else if c = underscore then ([], more)
    else ([], c :: more)

/-- The grammar's `suffix`: `[0-7] [0-9a-z]{25}`, excluding i, l, o, u (R142). -/
def suffixGrammar (t : List Byte) : Bool :=
  t.length == 26 && t.all isSymbol && decide (0x30 ≤ (t.headD 0x00#8).toNat ∧ (t.headD 0x00#8).toNat ≤ 0x37)

/-- The wire grammar `typeid := suffix | prefix "_" suffix`, an empty prefix going with the first alternative (R142). -/
def typeIdGrammar (t : List Byte) : Bool :=
  suffixGrammar t ||
    (t.contains underscore && (split t).1 != [] && decide ((split t).1.length ≤ 63) && prefixGrammar (split t).1 &&
      suffixGrammar (split t).2)

/-- `parse`, steps 6 and 7: the length, then what the block's `LDS ; DEC` answers (R146, R153). -/
def parseSuffix (typeid p suffix : List Byte) : Except HostFailure ParsedTypeId :=
  match takeVector 26 suffix with
  | some (v, []) =>
    match codecDecode v with
    | .value a => .ok { typePrefix := p, suffix := v, value := a, typeid := typeid }
    | .invalidSuffixAlphabet k _ =>
      .error { failWith .invalidSuffixAlphabet (.text suffix) with position := some k.val }
    | .suffixOverflow c =>
      .error { failWith .suffixOverflow (.text suffix) with firstSymbol := some c }
  | _ => .error (failWith .invalidSuffixLength (.text suffix))

/-- `parse(s)`, short-circuiting at the first failure (R146, R147). -/
def parse (arg : HostArg) : Except HostFailure ParsedTypeId :=
  match arg with
  | .notText => .error (failWith .invalidInputType arg)
  | .symbol _ => .error (failWith .invalidInputType arg)
  | .text s =>
    if s.length < 26 ∨ 90 < s.length then .error (failWith .invalidLength arg)
    else if s.any isUpperLetter then .error (failWith .invalidCase arg)
    else if s.head? = some underscore then .error (failWith .leadingUnderscore arg)
    else
      match validatePrefix (.text (split s).1) with
      | .error f => .error f
      | .ok p => parseSuffix s p (split s).2

/-- `explain(input)`: the identical sequence, nothing when every step passes (R148). -/
def explain (arg : HostArg) : Option HostFailure :=
  match parse arg with
  | .ok _ => none
  | .error f => some f

/-- A prefix at the outermost API boundary: a symbolic tag becomes the plain string of its name (R143; log entry 10). -/
def normalizePrefix : HostArg → HostArg
  | .text p => .text p
  | .symbol name => .text name
  | .notText => .notText

/-- `create(prefix?, value?)`, with the two answers a generation would draw; an omitted prefix is the empty one and an
omitted value a fresh one (R69, R150, R153). -/
def create (p : Option HostArg) (value : Option Value) (ts : BitVec 48) (r : RandomBytes) :
    Except HostFailure (List Byte) :=
  match validatePrefix (normalizePrefix (p.getD (.text []))) with
  | .error f => .error f
  | .ok q => .ok (assemble q (codecEncode (value.getD (pack ts r))).toList)

/-- The public `encode(value, prefix)` on a value of any length (R150, R152, R153). -/
def publicEncode (value : List Byte) (p : HostArg) : Except HostFailure (List Byte) :=
  match takeVector 16 value with
  | some (v, []) =>
    match validatePrefix (normalizePrefix p) with
    | .error f => .error f
    | .ok q => .ok (assemble q (codecEncode v).toList)
  | _ => .error (failWith .invalidValueLength (.text value))

/-- The public `decode(typeid)` (R150). -/
def publicDecode (typeid : HostArg) : Except HostFailure Value :=
  match parse typeid with
  | .ok parsed => .ok parsed.value
  | .error f => .error f

/-- The lower-case hexadecimal digit of a nibble, as a character code. -/
def hexCode (n : BitVec 4) : Byte :=
  if n.toNat < 10 then BitVec.ofNat 8 (0x30 + n.toNat) else BitVec.ofNat 8 (0x57 + n.toNat)

/-- The nibble of a hexadecimal digit of either case. -/
def hexNibble (c : Byte) : Option (BitVec 4) :=
  if 0x30 ≤ c.toNat ∧ c.toNat ≤ 0x39 then some (BitVec.ofNat 4 (c.toNat - 0x30))
  else if 0x61 ≤ c.toNat ∧ c.toNat ≤ 0x66 then some (BitVec.ofNat 4 (c.toNat - 0x57))
  else if 0x41 ≤ c.toNat ∧ c.toNat ≤ 0x46 then some (BitVec.ofNat 4 (c.toNat - 0x37))
  else none

/-- `valueToHex` (R151). -/
def valueToHex (a : Value) : List Byte :=
  a.toList.flatMap fun b => [hexCode (b.extractLsb' 4 4), hexCode (b.extractLsb' 0 4)]

/-- The bytes that pairs of hexadecimal digit codes spell. -/
def nibblePairs : List Byte → Option (List Byte)
  | [] => some []
  | [_] => none
  | hi :: lo :: more =>
    match hexNibble hi, hexNibble lo, nibblePairs more with
    | some h, some l, some bytes => some ((h ++ l) :: bytes)
    | _, _, _ => none

/-- `hexToValue`: hyphens are dropped, either case is read; none on anything else (R151; log entry 10). -/
def hexToValue (hex : List Byte) : Option Value :=
  match nibblePairs (hex.filter fun c => c != 0x2D#8) with
  | none => none
  | some bytes =>
    match takeVector 16 bytes with
    | some (v, []) => some v
    | _ => none

end Sys2Proof.Machine
end

