-- ==== Sys2Proof/WellFormed.lean ====
section
/-! DEFINITION. Well-formedness. A packet is well formed when its opcode byte is assigned (spec 30_encoding.md rule R65)
and its payload has exactly the length that opcode implies (R60, R64). A command is well formed when its packet is;
since the immediates carry their widths in their types (R71), every command is (Laws/Decode.lean proves it). -/

namespace Sys2Proof

/-- Check 1: the opcode byte is one of the six assigned ones (R65, R66). -/
def opcodeAssigned (op : Byte) : Bool := (packetLength op).isSome

/-- Check 2: the packet has exactly the length its opcode byte implies (R64). -/
def packetWellFormed : List Byte → Bool
  | [] => false
  | op :: payload => opcodeAssigned op && packetLength op == some (payload.length + 1)

/-- A command is well formed when the packet that spells it is. -/
def Instr.wellFormed (i : Instr) : Bool := packetWellFormed (encode i)

end Sys2Proof
end

