-- ==== Sys2Proof/Safety.lean ====
section
/-! DEFINITION. The terms claims are stated in: legal strings and paired states (spec 10_state.md rule R32), the
invariant of a state, runs and their three outcomes (70_reset_and_hazards.md rule R217). -/

namespace Sys2Proof.Machine

/-- The block is not faulted: FLT = 0, the condition under which a command executes (R25, R33). -/
abbrev Running (s : State) : Prop := faulted s = false

/-- A legal suffix: 26 symbols, the first one of `0` to `7` (R98, R101, R142). -/
abbrev LegalSuffix (s : Suffix) : Prop :=
  (∀ k : Fin 26, isSymbol s[k] = true) ∧ 0x30 ≤ s[0].toNat ∧ s[0].toNat ≤ 0x37

/-- SYM is a legal suffix and `decode(SYM) = VAL` (R32). -/
abbrev Paired (s : State) : Prop := LegalSuffix s.sym ∧ codecDecode s.sym = .value s.val

/-- The report of the last completed command is one a command can give (R24, R33, R96, R182; 93 U21). -/
abbrev ReportInv (w : BitVec 32) : Prop :=
  (statKind w = 0#4 ∧ statPos w = 0#5 ∧ statInfo w = 0#8) ∨
  (statKind w = 9#4 ∧ statP w = false ∧ (statPos w).toNat < 26 ∧ isSymbol (statInfo w) = false) ∨
  (statKind w = 10#4 ∧ statP w = false ∧ statPos w = 0#5 ∧ isSymbol (statInfo w) = true ∧
    (statInfo w).toNat > 0x37)

/-- FOP is 0 while FLT = 0 and an illegal opcode while FLT = 1 (R23, R186). -/
abbrev FaultRecordInv (w : BitVec 32) : Prop :=
  if statFlt w then opcodeAssigned (statFop w) = false else statFop w = 0#8

/-- The bytes received of an unfinished packet are a proper beginning of a legal one (R70). -/
abbrev ReceivedInv (bytes : List Byte) : Prop := decode bytes = .incomplete

/-- The invariant of a state: the reserved fields of STAT are 0, its report and fault record are consistent, the
received bytes are a proper beginning of a packet, and a faulted block holds none. -/
abbrev Inv (s : State) : Prop :=
  statReserved s.stat = 0#5 ∧ ReportInv s.stat ∧ FaultRecordInv s.stat ∧ ReceivedInv s.received ∧
  (faulted s = true → s.received = [])

/-- The report of the last completed command is this one: KIND, P, POS and INFO (R33). -/
abbrev Reports (t : State) (kind : BitVec 4) (p : Bool) (pos : BitVec 5) (info : Byte) : Prop :=
  statKind t.stat = kind ∧ statP t.stat = p ∧ statPos t.stat = pos ∧ statInfo t.stat = info

/-- FLT and FOP are those of `s`, and the hard-wired bits read 0 (R23, R33). -/
abbrev SameFaultRecord (s t : State) : Prop :=
  statFlt t.stat = statFlt s.stat ∧ statFop t.stat = statFop s.stat ∧ statReserved (statOut t) = 0#5

/-- The bytes received and the host's input are those of `s`: a command moves neither. -/
abbrev SameStream (s t : State) : Prop := t.received = s.received ∧ t.input = s.input

/-- The three outcomes of a run (R217). -/
inductive RunOutcome where
  | completed
  | faulted
  | waiting
  deriving DecidableEq, Repr

/-- The outcome a state stands for; none while bytes are still to be taken (R217). -/
def runOutcome (s : State) : Option RunOutcome :=
  if faulted s then some .faulted
  else if s.input = [] then (if s.received = [] then some .completed else some .waiting)
  else none

/-- The state after `n` steps, staying where a step stops. -/
def runSteps : Nat → State → State
  | 0, s => s
  | n + 1, s =>
    match step s with
    | .next t => runSteps n t
    | .fault _ => s
    | .refused _ => s

/-- The commands of a list, executed in order; a fault ends it (R47). -/
def execAll : List Instr → State → Host.Outcome State Fault Refusal
  | [], s => .next s
  | i :: more, s =>
    match exec i s with
    | .next t => execAll more t
    | .fault f => .fault f
    | .refused r => .refused r

end Sys2Proof.Machine
end

