-- ==== Sys2Proof/Certificates/Slice0/Obligations.lean ====
section
/-! DEFINITION. The statements for the provers, each formalising rules of spec/ (OBLIGATIONS.json names them). -/

open Sys2Proof Sys2Proof.Machine

/-! ## Reset and the invariant -/

/-- R30: after reset every piece of state has a defined value. -/
def Obligations.ResetStateIsAsSpecified : Prop :=
  (∀ i : Fin 16, State.reset.val[i] = 0x00#8) ∧ (∀ k : Fin 26, State.reset.sym[k] = 0x30#8) ∧
  Reports State.reset 0#4 false 0#5 0x00#8 ∧ statFlt State.reset.stat = false ∧ statFop State.reset.stat = 0x00#8 ∧
  valOut State.reset = 0#128 ∧ statOut State.reset = 0#32 ∧
  (∀ k : Fin 26, (symOut State.reset).extractLsb' (200 - 8 * k.val) 8 = 0x30#8)

/-- The reset state meets the invariant and is paired (R30, R32). -/
def Obligations.ResetMeetsTheInvariantAndIsPaired : Prop := Inv State.reset ∧ Paired State.reset

/-- From every state that meets the invariant, a step gives a state that meets it: STAT's reserved fields stay 0 (R23),
its report is one a completed command can give (R24, R33, R182), FOP is 0 while FLT = 0 and an illegal opcode while
FLT = 1 (R23, R186), the received bytes are a proper beginning of a packet (R70), and a faulted block holds none. -/
def Obligations.StepKeepsTheInvariant : Prop :=
  ∀ s t : State, Inv s → step s = .next t → Inv t

/-- R210: reset sets the reset state from an idle, a waiting and a faulted state, forgets a half-received packet and,
R212, leaves the oracles alone. The bytes presented before RST that the block does not consume, because it is faulted or
because they do not complete a packet, are gone, as are those presented while RST is asserted (log entry 5). -/
def Obligations.ResetEndsEveryState : Prop :=
  ∀ (s : State) (bytes presented : List Byte) (more : List HostInput),
    s.input = bytes.map HostInput.byte ++ .rst presented :: more →
    (faulted s = true ∨ decode (s.received ++ bytes) = .incomplete) →
    step s = .next { State.reset with input := more, draws := s.draws }

/-! ## Packets -/

/-- Decode and encode agree: the packet of every command, whatever follows it in the stream, decodes to that command and
leaves what follows (R60, R62, R63, R64). -/
def Obligations.DecodeOfEncodeReturnsTheCommand : Prop :=
  ∀ (i : Instr) (rest : List Byte), i.wellFormed = true → decode (encode i ++ rest) = .command i rest

/-- Every stream that decodes to a command begins with exactly that command's packet (R61, R64). -/
def Obligations.DecodedBytesAreTheEncoding : Prop :=
  ∀ (i : Instr) (bytes rest : List Byte), decode bytes = .command i rest → bytes = encode i ++ rest

/-- R64: the opcode byte alone tells the length of a packet: 17 for 0x01, 27 for 0x02, 1 for 0x03 to 0x06; the stream is a
whole packet exactly when that many bytes are there, and every other opcode byte has no length and is illegal. -/
def Obligations.OpcodeByteAloneTellsTheLength : Prop :=
  packetLength 0x01#8 = some 17 ∧ packetLength 0x02#8 = some 27 ∧ packetLength 0x03#8 = some 1 ∧
  packetLength 0x04#8 = some 1 ∧ packetLength 0x05#8 = some 1 ∧ packetLength 0x06#8 = some 1 ∧
  (∀ (op : Byte) (bytes : List Byte), (op.toNat = 0 ∨ 7 ≤ op.toNat) →
    packetLength op = none ∧ decode (op :: bytes) = .illegalOpcode op bytes) ∧
  (∀ (op : Byte) (bytes : List Byte) (n : Nat), packetLength op = some n →
    if bytes.length + 1 < n then decode (op :: bytes) = .incomplete
    else ∃ i, decode (op :: bytes) = .command i ((op :: bytes).drop n))

/-- Packets written out from the spec's listings decode to what they stand for (95_test_vectors.md T1, T3, P3; R65). -/
def Obligations.ListedPacketsDecode : Prop :=
  decode [0x01, 0x01, 0x23, 0x45, 0x67, 0x89, 0xab, 0xcd, 0xef, 0xfe, 0xdc, 0xba, 0x98, 0x76, 0x54, 0x32, 0x10] =
    .command (.ldv #v[0x01, 0x23, 0x45, 0x67, 0x89, 0xab, 0xcd, 0xef, 0xfe, 0xdc, 0xba, 0x98, 0x76, 0x54, 0x32, 0x10]) [] ∧
  decode ([0x02, 0x38] ++ List.replicate 25 0x7a) =
    .command (.lds (Vector.ofFn fun k => if k.val = 0 then 0x38 else 0x7a)) [] ∧
  decode [0x03] = .command .enc [] ∧ decode [0x04] = .command .dec [] ∧
  decode [0x05] = .command .gen [] ∧ decode [0x06] = .command .chk7 [] ∧
  decode [0x07, 0x03, 0x01] = .illegalOpcode 0x07 [0x03, 0x01]

/-! ## The stream and the step -/

/-- A STEP RUNS THE DECODED INSTRUCTION: where the bytes already received and those presented next are the packet of `i`,
the step is `exec` of `i`, the packet being consumed (R60, R70). The two byte sources are log entries 3 and 4. -/
def Obligations.StepRunsTheDecodedInstruction : Prop :=
  ∀ (s : State) (i : Instr) (bytes : List Byte) (more : List HostInput),
    Running s → s.received ++ bytes = encode i → s.input = bytes.map HostInput.byte ++ more →
    step s = exec i { s with received := [], input := more }

/-- R70: where the stream ends inside a packet the block takes the bytes so far, changes no register, and then waits,
neither faulted nor finished. (That the waiting step is a next state equal to the last is log entry 7.) -/
def Obligations.UnfinishedPacketWaits : Prop :=
  ∀ (s : State) (bytes : List Byte), Running s → s.received ++ bytes ≠ [] →
    s.input = bytes.map HostInput.byte → decode (s.received ++ bytes) = .incomplete →
    ∃ t, step s = .next t ∧ t.val = s.val ∧ t.sym = s.sym ∧ t.stat = s.stat ∧ t.draws = s.draws ∧
      t.received = s.received ++ bytes ∧ t.input = [] ∧ runOutcome t = some .waiting ∧ step t = .next t

/-- R70: the first bytes that arrive next are taken as the rest of the payload: a packet sent in two parts runs the command
that the whole packet runs (log entry 4). -/
def Obligations.LateBytesCompleteThePacket : Prop :=
  ∀ (s : State) (i : Instr) (first second : List Byte), Running s → s.received = [] →
    s.input = first.map HostInput.byte → encode i = first ++ second → first ≠ [] → second ≠ [] →
    ∃ t, step s = .next t ∧ runOutcome t = some .waiting ∧
      step (hostSend second t) = exec i { s with received := [], input := [] }

/-- An idle block that is offered nothing stays as it is (MODEL'S CHOICE, log entry 7; R195, R217). -/
def Obligations.IdleBlockStaysAsItIs : Prop :=
  ∀ s : State, Running s → s.received = [] → s.input = [] → step s = .next s ∧ runOutcome s = some .completed

/-- R47, R217: a stream of whole packets runs its commands one at a time, in the order they were sent, each seeing the
registers as the one before left them, and ends completed. -/
def Obligations.WholePacketsRunInOrder : Prop :=
  ∀ (is : List Instr) (s : State), Running s → s.received = [] → s.input = [] →
    ∃ t, execAll is s = .next t ∧ runSteps is.length (hostSend (is.flatMap encode) s) = t ∧
      runOutcome t = some .completed

/-- R217, second row: a stream of whole packets, then an illegal opcode byte and anything after it, ends faulted, with VAL
and SYM as the last command left them and the rest never consumed. That the step after it is the fault outcome is log
entry 6. -/
def Obligations.IllegalByteEndsTheRunFaulted : Prop :=
  ∀ (is : List Instr) (op : Byte) (rest : List Byte) (s : State), Running s → s.received = [] → s.input = [] →
    opcodeAssigned op = false →
    ∃ t u, execAll is s = .next t ∧
      runSteps (is.length + 1) (hostSend (is.flatMap encode ++ op :: rest) s) = u ∧
      runOutcome u = some .faulted ∧ statFop u.stat = op ∧ u.val = t.val ∧ u.sym = t.sym ∧
      u.input = rest.map HostInput.byte ∧ step u = .fault (.illegalCommand op)

/-- R217: every run settles: whatever the host does, after as many steps as it presents events and bytes the block has
completed, is faulted, or is waiting. -/
def Obligations.EveryRunSettles : Prop :=
  ∀ s : State, runOutcome (runSteps (s.received.length + s.input.length) s) ≠ none

/-! ## The fault -/

/-- R183, R186: the fault IllegalCommand is entered on the opcode byte alone: FLT and FOP are written, VAL, SYM, KIND, P, POS
and INFO are unchanged, and the block then consumes no further byte and executes no further command. That the entry is
a next state and what follows it the fault outcome is log entry 6. -/
def Obligations.IllegalOpcodeEntersTheFault : Prop :=
  ∀ (s : State) (op : Byte) (more : List HostInput), Running s → s.received = [] →
    (op.toNat = 0 ∨ 7 ≤ op.toNat) → s.input = .byte op :: more →
    ∃ t, step s = .next t ∧ statFlt t.stat = true ∧ statFop t.stat = op ∧ t.val = s.val ∧ t.sym = s.sym ∧
      Reports t (statKind s.stat) (statP s.stat) (statPos s.stat) (statInfo s.stat) ∧
      t.received = [] ∧ t.input = more ∧ t.draws = s.draws ∧
      (∀ i : Instr, exec i t = .fault (.illegalCommand op)) ∧
      (∀ bytes : List Byte, more = bytes.map HostInput.byte → step t = .fault (.illegalCommand op))

/-- R25, R185, R187: while FLT = 1 the block executes no command, whichever it is, and, with no reset to come, takes no
further step; both are the fault outcome (log entry 6). -/
def Obligations.FaultedBlockExecutesNothing : Prop :=
  ∀ s : State, faulted s = true →
    (∀ i : Instr, exec i s = .fault (.illegalCommand (statFop s.stat))) ∧
    (∀ bytes : List Byte, s.input = bytes.map HostInput.byte → step s = .fault (.illegalCommand (statFop s.stat)))

/-- R183: nothing but an illegal opcode byte faults: a step of a block that is not faulted always answers a next state, and
if that state is faulted then an illegal byte stood where an opcode is taken, and FOP is that byte. MODEL'S CHOICE: that
the entry into the fault is itself a next state is log entry 6 (R180 calls a fault the fault outcome of a step), and that
an idle or waiting step answers a next state, the same one, is log entry 7. -/
def Obligations.OnlyAnIllegalOpcodeFaults : Prop :=
  ∀ s : State, Running s → ∃ t, step s = .next t ∧
    (faulted t = true → ∃ rest, decode (s.received ++ (splitAtReset s.input).1) = .illegalOpcode (statFop t.stat) rest)

/-- R187, R210: the only exit from the faulted state is reset: a step of a faulted block that answers a next state clears
FLT, FOP, VAL and SYM to their reset values, and the host did assert RST. -/
def Obligations.OnlyResetLeavesTheFault : Prop :=
  ∀ s t : State, faulted s = true → step s = .next t →
    (∃ presented, HostInput.rst presented ∈ s.input) ∧ faulted t = false ∧ statFop t.stat = 0x00#8 ∧
    t.val = State.reset.val ∧ t.sym = State.reset.sym ∧ t.stat = 0#32 ∧ t.received = []

/-! ## The commands -/

/-- R80: LDV copies its 16-byte immediate into VAL. -/
def Obligations.LdvLoadsTheValue : Prop :=
  ∀ immV : Value, encode (.ldv immV) = 0x01#8 :: immV.toList ∧ (encode (.ldv immV)).length = 17 ∧
  ∀ s : State, Running s → ∃ t, exec (.ldv immV) s = .next t ∧
    (∀ i : Fin 16, t.val[i] = immV[i]) ∧ t.sym = s.sym ∧ Reports t 0#4 false 0#5 0x00#8 ∧ SameFaultRecord s t ∧
    SameStream s t ∧ t.draws = s.draws

/-- R81: LDS copies its 26-character immediate into SYM. -/
def Obligations.LdsLoadsTheString : Prop :=
  ∀ immS : Suffix, encode (.lds immS) = 0x02#8 :: immS.toList ∧ (encode (.lds immS)).length = 27 ∧
  ∀ s : State, Running s → ∃ t, exec (.lds immS) s = .next t ∧
    (∀ k : Fin 26, t.sym[k] = immS[k]) ∧ t.val = s.val ∧ Reports t 0#4 false 0#5 0x00#8 ∧ SameFaultRecord s t ∧
    SameStream s t ∧ t.draws = s.draws

/-- R95: ENC encodes VAL into SYM. -/
def Obligations.EncWritesTheEncoding : Prop :=
  encode .enc = [0x03#8] ∧
  ∀ s : State, Running s → ∃ t, exec .enc s = .next t ∧
    (∀ k : Fin 26, t.sym[k] = sym5 (((v128 s.val).setWidth 130).extractLsb' (125 - 5 * k.val) 5)) ∧
    t.val = s.val ∧ Reports t 0#4 false 0#5 0x00#8 ∧ SameFaultRecord s t ∧ SameStream s t ∧ t.draws = s.draws

/-- R94: the groups, written out in the bytes of VAL; group 0 is always at most 7. -/
def Obligations.GroupsAreTheBitsOfVal : Prop :=
  ∀ a : Value,
    group (widened a) 0 = 0b00#2 ++ a[0].extractLsb' 5 3 ∧
    group (widened a) 1 = a[0].extractLsb' 0 5 ∧
    group (widened a) 2 = a[1].extractLsb' 3 5 ∧
    group (widened a) 3 = a[1].extractLsb' 0 3 ++ a[2].extractLsb' 6 2 ∧
    group (widened a) 4 = a[2].extractLsb' 1 5 ∧
    group (widened a) 5 = a[2].extractLsb' 0 1 ++ a[3].extractLsb' 4 4 ∧
    group (widened a) 6 = a[3].extractLsb' 0 4 ++ a[4].extractLsb' 7 1 ∧
    group (widened a) 7 = a[4].extractLsb' 2 5 ∧
    group (widened a) 8 = a[4].extractLsb' 0 2 ++ a[5].extractLsb' 5 3 ∧
    group (widened a) 9 = a[5].extractLsb' 0 5 ∧
    group (widened a) 10 = a[6].extractLsb' 3 5 ∧
    group (widened a) 11 = a[6].extractLsb' 0 3 ++ a[7].extractLsb' 6 2 ∧
    group (widened a) 12 = a[7].extractLsb' 1 5 ∧
    group (widened a) 13 = a[7].extractLsb' 0 1 ++ a[8].extractLsb' 4 4 ∧
    group (widened a) 14 = a[8].extractLsb' 0 4 ++ a[9].extractLsb' 7 1 ∧
    group (widened a) 15 = a[9].extractLsb' 2 5 ∧
    group (widened a) 16 = a[9].extractLsb' 0 2 ++ a[10].extractLsb' 5 3 ∧
    group (widened a) 17 = a[10].extractLsb' 0 5 ∧
    group (widened a) 18 = a[11].extractLsb' 3 5 ∧
    group (widened a) 19 = a[11].extractLsb' 0 3 ++ a[12].extractLsb' 6 2 ∧
    group (widened a) 20 = a[12].extractLsb' 1 5 ∧
    group (widened a) 21 = a[12].extractLsb' 0 1 ++ a[13].extractLsb' 4 4 ∧
    group (widened a) 22 = a[13].extractLsb' 0 4 ++ a[14].extractLsb' 7 1 ∧
    group (widened a) 23 = a[14].extractLsb' 2 5 ∧
    group (widened a) 24 = a[14].extractLsb' 0 2 ++ a[15].extractLsb' 5 3 ∧
    group (widened a) 25 = a[15].extractLsb' 0 5 ∧
    (group (widened a) 0).toNat ≤ 7

/-- R99: the reassembled bytes, written out in the groups; with `g[0] <= 7` dropping the two leading bits loses nothing. -/
def Obligations.ReassembledBytesAreTheBitsOfTheGroups : Prop :=
  ∀ g : Groups,
    (valueOfGroups g)[0] = g[0].extractLsb' 0 3 ++ g[1] ∧
    (valueOfGroups g)[1] = g[2] ++ g[3].extractLsb' 2 3 ∧
    (valueOfGroups g)[2] = g[3].extractLsb' 0 2 ++ g[4] ++ g[5].extractLsb' 4 1 ∧
    (valueOfGroups g)[3] = g[5].extractLsb' 0 4 ++ g[6].extractLsb' 1 4 ∧
    (valueOfGroups g)[4] = g[6].extractLsb' 0 1 ++ g[7] ++ g[8].extractLsb' 3 2 ∧
    (valueOfGroups g)[5] = g[8].extractLsb' 0 3 ++ g[9] ∧
    (valueOfGroups g)[6] = g[10] ++ g[11].extractLsb' 2 3 ∧
    (valueOfGroups g)[7] = g[11].extractLsb' 0 2 ++ g[12] ++ g[13].extractLsb' 4 1 ∧
    (valueOfGroups g)[8] = g[13].extractLsb' 0 4 ++ g[14].extractLsb' 1 4 ∧
    (valueOfGroups g)[9] = g[14].extractLsb' 0 1 ++ g[15] ++ g[16].extractLsb' 3 2 ∧
    (valueOfGroups g)[10] = g[16].extractLsb' 0 3 ++ g[17] ∧
    (valueOfGroups g)[11] = g[18] ++ g[19].extractLsb' 2 3 ∧
    (valueOfGroups g)[12] = g[19].extractLsb' 0 2 ++ g[20] ++ g[21].extractLsb' 4 1 ∧
    (valueOfGroups g)[13] = g[21].extractLsb' 0 4 ++ g[22].extractLsb' 1 4 ∧
    (valueOfGroups g)[14] = g[22].extractLsb' 0 1 ++ g[23] ++ g[24].extractLsb' 3 2 ∧
    (valueOfGroups g)[15] = g[24].extractLsb' 0 3 ++ g[25] ∧
    (g[0].toNat ≤ 7 → widened (valueOfGroups g) = reassembled g)

/-- R92: `val5` in closed form, on all 256 codes, and its inverse `sym5`. -/
def Obligations.SymbolMapperInClosedForm : Prop :=
  (∀ c : Byte, val5 c =
    if 0x30 ≤ c.toNat ∧ c.toNat ≤ 0x39 then some (BitVec.ofNat 5 (c.toNat - 0x30))
    else if 0x61 ≤ c.toNat ∧ c.toNat ≤ 0x68 then some (BitVec.ofNat 5 (c.toNat - 0x61 + 10))
    else if 0x6A ≤ c.toNat ∧ c.toNat ≤ 0x6B then some (BitVec.ofNat 5 (c.toNat - 0x6A + 18))
    else if 0x6D ≤ c.toNat ∧ c.toNat ≤ 0x6E then some (BitVec.ofNat 5 (c.toNat - 0x6D + 20))
    else if 0x70 ≤ c.toNat ∧ c.toNat ≤ 0x74 then some (BitVec.ofNat 5 (c.toNat - 0x70 + 22))
    else if 0x76 ≤ c.toNat ∧ c.toNat ≤ 0x7A then some (BitVec.ofNat 5 (c.toNat - 0x76 + 27))
    else none) ∧
  (∀ g : BitVec 5, val5 (sym5 g) = some g) ∧ (∀ (c : Byte) (g : BitVec 5), val5 c = some g → sym5 g = c)

/-- R104: after ENC, SYM[0] is one of the eight symbols `0` to `7`, every SYM[k] is one of the 32 symbols, and DEC does not
fail on what ENC produced. -/
def Obligations.EncProducesALegalSuffix : Prop :=
  ∀ s : State, Running s → ∃ t u, exec .enc s = .next t ∧ LegalSuffix t.sym ∧
    exec .dec t = .next u ∧ statKind u.stat = 0#4

/-- R96, success: on a legal suffix DEC writes into VAL the bytes reassembled from the symbols' groups. -/
def Obligations.DecDecodesALegalSuffix : Prop :=
  ∀ s : State, Running s → LegalSuffix s.sym → ∃ t, exec .dec s = .next t ∧
    (∃ g : Groups, (∀ k : Fin 26, val5 s.sym[k] = some g[k]) ∧ t.val = valueOfGroups g) ∧
    t.sym = s.sym ∧ Reports t 0#4 false 0#5 0x00#8 ∧ SameFaultRecord s t ∧ SameStream s t ∧ t.draws = s.draws

/-- R97: DEC reports the lowest-indexed character that is no symbol, whatever the first character is; VAL and SYM are
unchanged. -/
def Obligations.DecReportsTheLowestInvalidCharacter : Prop :=
  ∀ (s : State) (k : Fin 26), Running s → isSymbol s.sym[k] = false → (∀ j : Fin 26, j < k → isSymbol s.sym[j] = true) →
    ∃ t, exec .dec s = .next t ∧ t.val = s.val ∧ t.sym = s.sym ∧
      Reports t 9#4 false (BitVec.ofNat 5 k.val) s.sym[k] ∧ SameFaultRecord s t ∧ SameStream s t ∧ t.draws = s.draws

/-- R98: on a string of symbols DEC reports SuffixOverflow exactly when the value of the first one is above 7, that is when
its two upper bits are not both 0, that is when its code is not one of 0x30 to 0x37; the first character is then in INFO, and VAL and SYM are unchanged. -/
def Obligations.DecReportsAnOverflow : Prop :=
  ∀ (s : State) (g : BitVec 5), Running s → (∀ k : Fin 26, isSymbol s.sym[k] = true) → val5 s.sym[0] = some g →
    (7 < g.toNat ↔ g.extractLsb' 3 2 ≠ 0b00#2) ∧
    (7 < g.toNat ↔ ¬ (0x30 ≤ s.sym[0].toNat ∧ s.sym[0].toNat ≤ 0x37)) ∧
    ∃ t, exec .dec s = .next t ∧ (statKind t.stat = 10#4 ↔ 7 < g.toNat) ∧
      (7 < g.toNat → t.val = s.val ∧ t.sym = s.sym ∧ Reports t 10#4 false 0#5 s.sym[0] ∧
        SameFaultRecord s t ∧ SameStream s t ∧ t.draws = s.draws)

/-- R122, R120, R123: GEN writes the value packed from the two answers of its one draw (the free values of Config, log entry 1),
each byte as the layout says, and nothing else but the report; the next draw is a fresh one. -/
def Obligations.GenPacksTheTwoAnswers : Prop :=
  encode .gen = [0x05#8] ∧
  ∀ s : State, Running s → ∃ t, exec .gen s = .next t ∧
    (∀ i : Fin 6, t.val[i.val]'(by omega) = (Config.clockSource s.draws).extractLsb' (40 - 8 * i.val) 8) ∧
    t.val[6] = ((Config.randomSource s.draws).extractLsb' 72 8 &&& 0x0F#8) ||| 0x70#8 ∧
    t.val[7] = (Config.randomSource s.draws).extractLsb' 64 8 ∧
    t.val[8] = ((Config.randomSource s.draws).extractLsb' 56 8 &&& 0x3F#8) ||| 0x80#8 ∧
    (∀ i : Fin 7, t.val[9 + i.val]'(by omega) = (Config.randomSource s.draws).extractLsb' (48 - 8 * i.val) 8) ∧
    t.sym = s.sym ∧ Reports t 0#4 false 0#5 0x00#8 ∧ SameFaultRecord s t ∧ SameStream s t ∧ t.draws = s.draws + 1

/-- R121: the layout of a packed value as fields of its 128-bit number. -/
def Obligations.PackedValueAsFields : Prop :=
  ∀ (ts : BitVec 48) (r : RandomBytes),
    (v128 (pack ts r)).extractLsb' 80 48 = ts ∧
    (v128 (pack ts r)).extractLsb' 76 4 = 0b0111#4 ∧
    (v128 (pack ts r)).extractLsb' 72 4 = r[0].extractLsb' 0 4 ∧
    (v128 (pack ts r)).extractLsb' 64 8 = r[1] ∧
    (v128 (pack ts r)).extractLsb' 62 2 = 0b10#2 ∧
    (v128 (pack ts r)).extractLsb' 56 6 = r[2].extractLsb' 0 6 ∧
    (v128 (pack ts r)).extractLsb' 0 56 = r[3] ++ r[4] ++ r[5] ++ r[6] ++ r[7] ++ r[8] ++ r[9]

/-- R130: every value GEN writes satisfies `is_v7`, for every pair of answers, so GEN then CHK7 always ends with P = 1. -/
def Obligations.GenThenChk7SetsP : Prop :=
  (∀ (ts : BitVec 48) (r : RandomBytes), isV7 (pack ts r) = true) ∧
  ∀ s : State, Running s → ∃ t, execAll [.gen, .chk7] s = .next t ∧ Reports t 0#4 true 0#5 0x00#8

/-- R126: of two generated values the one with the smaller timestamp is the smaller number, whatever the random bytes. -/
def Obligations.TimestampOrderIsValueOrder : Prop :=
  ∀ (ts1 ts2 : BitVec 48) (r1 r2 : RandomBytes), ts1 < ts2 → v128 (pack ts1 r1) < v128 (pack ts2 r2)

/-- R126: the encoding keeps the order of values: the smaller number has the smaller string in the byte-wise order of the
26 characters. -/
def Obligations.EncodingKeepsTheOrder : Prop :=
  ∀ a b : Value, v128 a < v128 b → (codecEncode a).toList < (codecEncode b).toList

/-- R128, R129: CHK7 tests the high nibble of byte 6 and the top two bits of byte 8 of VAL, puts the answer in P, and
changes nothing else but the report. -/
def Obligations.Chk7TestsTheTwoFields : Prop :=
  encode .chk7 = [0x06#8] ∧
  ∀ s : State, Running s → ∃ t, exec .chk7 s = .next t ∧
    Reports t 0#4 ((s.val[6] &&& 0xF0#8 == 0x70#8) && (s.val[8] &&& 0xC0#8 == 0x80#8)) 0#5 0x00#8 ∧
    t.val = s.val ∧ t.sym = s.sym ∧ SameFaultRecord s t ∧ SameStream s t ∧ t.draws = s.draws

/-! ## Contracts over all commands -/

/-- R100: for every value, `LDV v ; ENC ; DEC` completes with VAL = v, SYM = encode(v), KIND = 0. -/
def Obligations.RoundTripValueFirst : Prop :=
  (∀ v : Value, codecDecode (codecEncode v) = .value v) ∧
  ∀ (v : Value) (s : State), Running s → ∃ t, execAll [.ldv v, .enc, .dec] s = .next t ∧
    t.val = v ∧ t.sym = codecEncode v ∧ statKind t.stat = 0#4

/-- R101: for every legal suffix, `LDS s ; DEC ; ENC` completes with SYM = s, VAL = decode(s), KIND = 0; on any other string
the sequence leaves SYM = encode of the VAL from before. -/
def Obligations.RoundTripStringFirst : Prop :=
  ∀ (a : Suffix) (s : State), Running s → ∃ t, execAll [.lds a, .dec, .enc] s = .next t ∧
    statKind t.stat = 0#4 ∧
    (LegalSuffix a → t.sym = a ∧ codecDecode a = .value t.val) ∧
    (¬ LegalSuffix a → t.sym = codecEncode s.val ∧ t.val = s.val)

/-- R101: `encode` is a bijection from the values onto the legal suffixes. -/
def Obligations.EncodingIsABijection : Prop :=
  (∀ a b : Value, codecEncode a = codecEncode b → a = b) ∧
  (∀ x : Suffix, LegalSuffix x ↔ ∃ a : Value, codecEncode a = x)

/-- R33, R24, R182, R25: whatever the command, KIND is afterwards 0, 9 or 10 with the POS and INFO that go with it, a kind
other than 0 comes from DEC only, P is set by CHK7 only, and FLT and FOP are left alone. -/
def Obligations.EveryCompletedCommandReports : Prop :=
  ∀ (i : Instr) (s : State), Running s → ∃ t, exec i s = .next t ∧ ReportInv t.stat ∧
    (statKind t.stat ≠ 0#4 → i = .dec) ∧ (statP t.stat = true → i = .chk7) ∧ SameFaultRecord s t

/-- R20, R21, R22, R31: VAL is written by LDV, DEC and GEN only and SYM by LDS and ENC only; no command moves the stream;
only GEN takes a draw. -/
def Obligations.OnlyTheNamedCommandsWriteARegister : Prop :=
  ∀ (i : Instr) (s t : State), exec i s = .next t →
    SameStream s t ∧
    (i = .enc ∨ i = .chk7 ∨ (∃ x, i = .lds x) → t.val = s.val) ∧
    (i = .dec ∨ i = .gen ∨ i = .chk7 ∨ (∃ x, i = .ldv x) → t.sym = s.sym) ∧
    (i ≠ .gen → t.draws = s.draws)

/-- R188: no partial success: a command that ends in a tagged result leaves VAL and SYM exactly as they were. -/
def Obligations.TaggedResultChangesStatOnly : Prop :=
  ∀ (i : Instr) (s t : State), exec i s = .next t → statKind t.stat ≠ 0#4 →
    t.val = s.val ∧ t.sym = s.sym ∧ SameFaultRecord s t ∧ SameStream s t ∧ t.draws = s.draws

/-- R44: LDV, LDS, ENC, DEC and CHK7 are idempotent: issuing one twice in a row leaves the same state as once. -/
def Obligations.CommandsOtherThanGenAreIdempotent : Prop :=
  ∀ (i : Instr) (s t : State), i ≠ .gen → exec i s = .next t → exec i t = .next t

/-- R20: no command's result depends on anything but VAL, SYM and, for GEN, the two draws: not on STAT, not on the stream. -/
def Obligations.ResultsDependOnDataRegistersAndDrawsOnly : Prop :=
  ∀ (i : Instr) (s1 s2 t1 t2 : State), s1.val = s2.val → s1.sym = s2.sym → (i = .gen → s1.draws = s2.draws) →
    exec i s1 = .next t1 → exec i s2 = .next t2 →
    t1.val = t2.val ∧ t1.sym = t2.sym ∧
    Reports t1 (statKind t2.stat) (statP t2.stat) (statPos t2.stat) (statInfo t2.stat)

/-- R32: ENC makes the state paired; a successful DEC makes it paired; a failed DEC and CHK7 leave the pairing as it was. -/
def Obligations.PairingIsMadeAndKept : Prop :=
  ∀ s : State, Running s →
    (∃ t, exec .enc s = .next t ∧ Paired t) ∧
    (∃ t, exec .dec s = .next t ∧ (statKind t.stat = 0#4 → Paired t) ∧ (statKind t.stat ≠ 0#4 → (Paired t ↔ Paired s))) ∧
    (∃ t, exec .chk7 s = .next t ∧ (Paired t ↔ Paired s))

/-! ## Ports and STAT -/

/-- R29: the output ports show the registers, index 0 in the most significant bits. -/
def Obligations.OutputPortsShowTheRegisters : Prop :=
  ∀ s : State,
    (∀ i : Fin 16, (valOut s).extractLsb' (120 - 8 * i.val) 8 = s.val[i]) ∧
    (∀ k : Fin 26, (symOut s).extractLsb' (200 - 8 * k.val) 8 = s.sym[k]) ∧
    (statReserved s.stat = 0#5 → statOut s = s.stat)

/-- R23: the fields of STAT are where the layout puts them, and bits 6:5 and 15:13 read 0 in every state (log
entry 9). -/
def Obligations.StatOutHasTheLayout : Prop :=
  ∀ s : State,
    (statOut s).toNat = (statFop s.stat).toNat * 2 ^ 24 + (statInfo s.stat).toNat * 2 ^ 16 +
      (statPos s.stat).toNat * 2 ^ 8 + (statFlt s.stat).toNat * 2 ^ 7 + (statP s.stat).toNat * 2 ^ 4 +
      (statKind s.stat).toNat ∧
    (statOut s).extractLsb' 5 2 = 0#2 ∧ (statOut s).extractLsb' 13 3 = 0#3

/-! ## Notation and the host layer

The host layer is outside the hardware (00_scope.md R4); what the spec leaves to it is log entry 10. -/

/-- R68, row by row: each form of line gives the packet of its own command and no other line of that form gives one; the
hexadecimal digits of LDV are read most significant first in either case, the characters and bytes of LDS in order; an
operand of a wrong length is an assembly error, not a packet (lines as data, and a character above code 255 no packet: log
entry 12). -/
def Obligations.AssemblyLinesGivePackets : Prop :=
  (∀ (digits : List Char) (packet : List Byte), assembleLine (.ldvHex digits) = some packet ↔
    ∃ v : Value, packet = 0x01#8 :: v.toList ∧
      digits.map hexDigit = v.toList.flatMap fun b => [some (b.extractLsb' 4 4), some (b.extractLsb' 0 4)]) ∧
  (∀ (c : Char) (n : BitVec 4), hexDigit c = some n ↔
    (n.toNat < 10 ∧ c.toNat = 0x30 + n.toNat) ∨ (10 ≤ n.toNat ∧ c.toNat = 0x61 + (n.toNat - 10)) ∨
    (10 ≤ n.toNat ∧ c.toNat = 0x41 + (n.toNat - 10))) ∧
  (∀ (chars : List Char) (packet : List Byte), assembleLine (.ldsText chars) = some packet ↔
    ∃ a : Suffix, packet = 0x02#8 :: a.toList ∧ chars.map Char.toNat = a.toList.map BitVec.toNat) ∧
  (∀ bytes packet : List Byte, assembleLine (.ldsBytes bytes) = some packet ↔
    ∃ a : Suffix, packet = 0x02#8 :: a.toList ∧ bytes = a.toList) ∧
  assembleLine .enc = some [0x03#8] ∧ assembleLine .dec = some [0x04#8] ∧
  assembleLine .gen = some [0x05#8] ∧ assembleLine .chk7 = some [0x06#8] ∧
  (∀ b : Byte, assembleLine (.rawByte b) = some [b]) ∧ (∀ text : List Char, assembleLine (.comment text) = some []) ∧
  (∀ bytes : List Byte, bytes.length ≠ 26 → assembleLine (.ldsBytes bytes) = none) ∧
  (∀ chars : List Char, chars.length ≠ 26 → assembleLine (.ldsText chars) = none) ∧
  (∀ digits : List Char, digits.length ≠ 32 → assembleLine (.ldvHex digits) = none)

/-- R69: the pseudo-instructions render the source's functions: ENCODE leaves `encode(v)` in SYM; DECODE leaves `decode(s)`
in VAL, or the tagged result and VAL as it was; NEWID leaves the text of a freshly packed value in SYM. -/
def Obligations.PseudoInstructionsRenderTheFunctions : Prop :=
  ∀ s : State, Running s →
    (∀ v : Value, ∃ t, execAll (expand (.encodeValue v)) s = .next t ∧ t.sym = codecEncode v ∧ statKind t.stat = 0#4) ∧
    (∀ x : Suffix, ∃ t, execAll (expand (.decodeString x)) s = .next t ∧
      (LegalSuffix x → codecDecode x = .value t.val ∧ statKind t.stat = 0#4) ∧
      (¬ LegalSuffix x → t.val = s.val ∧ (statKind t.stat = 9#4 ∨ statKind t.stat = 10#4))) ∧
    (∃ t, execAll (expand .newId) s = .next t ∧ t.sym = codecEncode t.val ∧
      t.val = pack (clockAnswer s) (randomAnswer s))

/-- R145, R144: splitting on the last underscore undoes assembling, for a suffix that holds none. -/
def Obligations.SplitUndoesAssemble : Prop :=
  ∀ p suffix : List Byte, underscore ∉ suffix → split (assemble p suffix) = (p, suffix)

/-- R149: for every valid prefix `P` and every value `U`, parsing the assembled identifier gives `P`, `encode(U)`, `U` back. -/
def Obligations.ParseUndoesAssemble : Prop :=
  ∀ (p : List Byte) (u : Value), validatePrefix (.text p) = .ok p →
    parse (.text (assemble p (codecEncode u).toList)) =
      .ok { typePrefix := p, suffix := codecEncode u, value := u, typeid := assemble p (codecEncode u).toList }

/-- R146: `parse` checks in the stated order and stops at the first failure (its first four steps). -/
def Obligations.ParseChecksInTheStatedOrder : Prop :=
  parse .notText = .error (failWith .invalidInputType .notText) ∧
  (∀ name : List Byte, parse (.symbol name) = .error (failWith .invalidInputType (.symbol name))) ∧
  ∀ x : List Byte,
    (x.length < 26 ∨ 90 < x.length → parse (.text x) = .error (failWith .invalidLength (.text x))) ∧
    (26 ≤ x.length ∧ x.length ≤ 90 → x.any isUpperLetter = true →
      parse (.text x) = .error (failWith .invalidCase (.text x))) ∧
    (26 ≤ x.length ∧ x.length ≤ 90 → x.any isUpperLetter = false → x.head? = some underscore →
      parse (.text x) = .error (failWith .leadingUnderscore (.text x)))

/-- R142, R146: `parse` accepts exactly the strings of the wire grammar. -/
def Obligations.ParseAcceptsExactlyTheGrammar : Prop :=
  ∀ x : List Byte, (∃ parsed, parse (.text x) = .ok parsed) ↔ typeIdGrammar x = true

/-- R151: `valueToHex` gives 32 lower-case hexadecimal digits, and `hexToValue` undoes it. -/
def Obligations.HexFormIsUndone : Prop :=
  ∀ a : Value, (valueToHex a).length = 32 ∧
    (∀ c ∈ valueToHex a, (0x30 ≤ c.toNat ∧ c.toNat ≤ 0x39) ∨ (0x61 ≤ c.toNat ∧ c.toNat ≤ 0x66)) ∧
    hexToValue (valueToHex a) = some a

/-- R143: the prefix validator refuses what is no string, then a length above 63, then what does not match the grammar, in
that order, and accepts the rest unchanged; a failure carries the offending value, and a format failure, and no other, the
pattern violated, whose form is a free value (log entry 13). A symbolic tag is normalised at the outermost boundary, before
the validator (that it becomes its name is log entry 10). -/
def Obligations.PrefixValidatorChecksInTheStatedOrder : Prop :=
  validatePrefix .notText = .error (failWith .invalidPrefixType .notText) ∧
  (∀ name : List Byte, validatePrefix (.symbol name) = .error (failWith .invalidPrefixType (.symbol name))) ∧
  (∀ p : List Byte, 63 < p.length → validatePrefix (.text p) = .error (failWith .prefixTooLong (.text p))) ∧
  (∀ p : List Byte, p.length ≤ 63 →
    if p = [] ∨ ((∃ c, p.head? = some c ∧ 0x61 ≤ c.toNat ∧ c.toNat ≤ 0x7A) ∧
        (∃ c, p.getLast? = some c ∧ 0x61 ≤ c.toNat ∧ c.toNat ≤ 0x7A) ∧
        ∀ c ∈ p, (0x61 ≤ c.toNat ∧ c.toNat ≤ 0x7A) ∨ c = 0x5F#8) then
      validatePrefix (.text p) = .ok p
    else
      ∃ f, validatePrefix (.text p) = .error f ∧ f.kind = .invalidPrefixFormat ∧ f.offending = .text p ∧
        f.pattern = some (Config.violatedPattern p)) ∧
  (∀ (arg : HostArg) (f : HostFailure), validatePrefix arg = .error f →
    f.offending = arg ∧ (f.pattern.isSome = true ↔ f.kind = .invalidPrefixFormat)) ∧
  (∀ (name : List Byte) (value : Option Value) (ts : BitVec 48) (r : RandomBytes),
    create (some (.symbol name)) value ts r = create (some (.text name)) value ts r) ∧
  (∀ name value : List Byte, publicEncode value (.symbol name) = publicEncode value (.text name))
end

