-- ==== Sys2Proof/Laws/Decode.lean ====
section
/-! SUPPORT. The packet decoder and encoder: what `takeVector` answers, the length of a packet, and that every command
is well formed (spec 30_encoding.md rules R62 to R64, R71). -/

namespace Sys2Proof

/-- `takeVector` gives the first bytes, in order, once they are there. -/
theorem takeVector_append {n : Nat} (v : Vector Byte n) (rest : List Byte) :
    takeVector n (v.toList ++ rest) = some (v, rest) := by
  have hn : n ≤ (v.toList ++ rest).length := by simp
  rw [takeVector, dif_pos hn]
  congr 2
  · apply Vector.toList_inj.mp
    simp
  · simp

/-- `takeVector` waits while bytes are missing. -/
theorem takeVector_short {n : Nat} {bytes : List Byte} (h : bytes.length < n) : takeVector n bytes = none := by
  rw [takeVector, dif_neg (by omega)]

/-- Everything `takeVector` can do. -/
theorem takeVector_spec (n : Nat) (bytes : List Byte) :
    (bytes.length < n ∧ takeVector n bytes = none) ∨
    ∃ v rest, bytes = Vector.toList v ++ rest ∧ takeVector n bytes = some (v, rest) := by
  by_cases h : n ≤ bytes.length
  · refine .inr ⟨⟨(bytes.take n).toArray, by simp [h]⟩, bytes.drop n, ?_, by rw [takeVector, dif_pos h]⟩
    simp [Vector.toList]
  · exact .inl ⟨by omega, takeVector_short (by omega)⟩

/-- The opcode byte of a command implies the length of its packet (R64). -/
theorem packetLength_opcodeOf (i : Instr) : packetLength (opcodeOf i) = some (encode i).length := by
  cases i <;> simp [packetLength, opcodeOf, encode, payloadOf]

/-- Every command is well formed: its immediates have their widths by type (R71). -/
@[simp] theorem Instr.wellFormed_all (i : Instr) : i.wellFormed = true := by
  have h := packetLength_opcodeOf i
  simp [Instr.wellFormed, packetWellFormed, encode, opcodeAssigned] at h ⊢
  simp [h]

/-- A packet is never empty. -/
theorem encode_ne_nil (i : Instr) : encode i ≠ [] := by simp [encode]

/-- No byte, no packet. -/
@[simp] theorem decode_nil : decode [] = .incomplete := rfl

/-- Only opcode bytes 0x01 to 0x06 imply a length (R65). -/
theorem packetLength_eq_none_iff (op : Byte) : packetLength op = none ↔ op.toNat = 0 ∨ 7 ≤ op.toNat := by
  unfold packetLength
  split
  all_goals
    simp_all
  omega

end Sys2Proof
end

