-- ==== Sys2Proof/Laws/Assembler.lean ====
section
/-! SUPPORT. The assembly lines: what each operand reader accepts, and when an operand gives a packet (spec
30_encoding.md rule R68). -/

namespace Sys2Proof.Machine

/-- Pairs of digits spell these bytes exactly where they are the digits of their high and low nibbles, in order. -/
theorem hexBytes_eq_some_iff (digits : List Char) (bytes : List Byte) :
    hexBytes digits = some bytes ↔
      digits.map hexDigit = bytes.flatMap fun b => [some (b.extractLsb' 4 4), some (b.extractLsb' 0 4)] := by
  have split8 : ∀ b : Byte, b.extractLsb' 4 4 ++ b.extractLsb' 0 4 = b := by decide
  have high : ∀ h l : BitVec 4, (h ++ l).extractLsb' 4 4 = h := by decide
  have low : ∀ h l : BitVec 4, (h ++ l).extractLsb' 0 4 = l := by decide
  induction digits using hexBytes.induct generalizing bytes with
  | case1 => cases bytes <;> simp [hexBytes]
  | case2 => cases bytes <;> simp [hexBytes]
  | case3 hi lo more h l bs hb hl hh ih =>
    simp only [hexBytes, hh, hl, hb, Option.some.injEq, List.map_cons]
    cases bytes with
    | nil => simp
    | cons b bs' =>
      have ih' := ih bs'
      rw [hb, Option.some.injEq] at ih'
      simp only [List.cons.injEq, List.flatMap_cons, List.cons_append, List.nil_append, Option.some.injEq, ← ih']
      constructor
      · rintro ⟨rfl, rfl⟩
        exact ⟨(high h l).symm, (low h l).symm, rfl⟩
      · rintro ⟨rfl, rfl, rfl⟩
        exact ⟨split8 b, rfl⟩
  | case4 hi lo more hn ih =>
    cases bytes with
    | nil => simp [hexBytes]
    | cons b bs' =>
      constructor
      · intro h
        simp [hexBytes] at h
      · intro h
        simp only [List.map_cons, List.flatMap_cons, List.cons_append, List.nil_append, List.cons.injEq] at h
        exact (hn _ _ _ h.1 h.2.1 ((ih bs').2 h.2.2)).elim

/-- The characters of a string have these codes exactly where each fits 8 bits and is that code. -/
theorem charBytes_eq_some_iff (chars : List Char) (bytes : List Byte) :
    charBytes chars = some bytes ↔ chars.map Char.toNat = bytes.map BitVec.toNat := by
  induction chars generalizing bytes with
  | nil => cases bytes <;> simp [charBytes]
  | cons c cs ih =>
    cases bytes with
    | nil => simp only [charBytes]; split <;> simp
    | cons b bs =>
      simp only [List.map_cons, List.cons.injEq, ← ih bs, charBytes, charByte]
      by_cases hc : c.toNat < 256
      · rw [if_pos hc]
        have he : BitVec.ofNat 8 c.toNat = b ↔ c.toNat = b.toNat := by
          rw [← BitVec.toNat_inj, BitVec.toNat_ofNat, Nat.mod_eq_of_lt hc]
        cases h : charBytes cs <;> simp [he]
      · rw [if_neg hc]
        have := b.isLt
        simp only [reduceCtorEq, false_iff, not_and]
        omega

/-- An operand gives a packet exactly where it spells `n` bytes. -/
theorem assemblePayload_eq_some_iff {n : Nat} (make : Vector Byte n → Instr) (payload : Option (List Byte))
    (packet : List Byte) :
    assemblePayload n make payload = some packet ↔
      ∃ v : Vector Byte n, payload = some v.toList ∧ packet = encode (make v) := by
  constructor
  · intro h
    unfold assemblePayload at h
    split at h
    · cases h
    · rename_i bytes
      obtain ⟨_, ht⟩ | ⟨v, rest, hb, ht⟩ := takeVector_spec n bytes
      · simp [ht] at h
      · rw [ht] at h
        cases rest with
        | nil => exact ⟨v, by simpa using hb, by simpa using h.symm⟩
        | cons _ _ => simp at h
  · rintro ⟨v, rfl, rfl⟩
    have ht := takeVector_append v []
    rw [List.append_nil] at ht
    simp [assemblePayload, ht]

end Sys2Proof.Machine
end

