-- ==== Sys2Proof/Laws/State.lean ====
section
/-! SUPPORT. One lemma per field of State per update, each true by rfl, so that no proof unfolds a record update. -/

namespace Sys2Proof.Machine

@[simp] theorem writeVal_val (a : Value) (s : State) :
    (writeVal a s).val = a := rfl
@[simp] theorem writeVal_sym (a : Value) (s : State) :
    (writeVal a s).sym = s.sym := rfl
@[simp] theorem writeVal_stat (a : Value) (s : State) :
    (writeVal a s).stat = s.stat := rfl
@[simp] theorem writeVal_received (a : Value) (s : State) :
    (writeVal a s).received = s.received := rfl
@[simp] theorem writeVal_input (a : Value) (s : State) :
    (writeVal a s).input = s.input := rfl
@[simp] theorem writeVal_draws (a : Value) (s : State) :
    (writeVal a s).draws = s.draws := rfl

@[simp] theorem writeSym_val (a : Suffix) (s : State) :
    (writeSym a s).val = s.val := rfl
@[simp] theorem writeSym_sym (a : Suffix) (s : State) :
    (writeSym a s).sym = a := rfl
@[simp] theorem writeSym_stat (a : Suffix) (s : State) :
    (writeSym a s).stat = s.stat := rfl
@[simp] theorem writeSym_received (a : Suffix) (s : State) :
    (writeSym a s).received = s.received := rfl
@[simp] theorem writeSym_input (a : Suffix) (s : State) :
    (writeSym a s).input = s.input := rfl
@[simp] theorem writeSym_draws (a : Suffix) (s : State) :
    (writeSym a s).draws = s.draws := rfl

@[simp] theorem complete_val (kind : Kind) (p : Bool) (pos : BitVec 5) (info : Byte) (s : State) :
    (complete kind p pos info s).val = s.val := rfl
@[simp] theorem complete_sym (kind : Kind) (p : Bool) (pos : BitVec 5) (info : Byte) (s : State) :
    (complete kind p pos info s).sym = s.sym := rfl
@[simp] theorem complete_stat (kind : Kind) (p : Bool) (pos : BitVec 5) (info : Byte) (s : State) :
    (complete kind p pos info s).stat = statCompleted s.stat (kindCode kind) p pos info := rfl
@[simp] theorem complete_received (kind : Kind) (p : Bool) (pos : BitVec 5) (info : Byte) (s : State) :
    (complete kind p pos info s).received = s.received := rfl
@[simp] theorem complete_input (kind : Kind) (p : Bool) (pos : BitVec 5) (info : Byte) (s : State) :
    (complete kind p pos info s).input = s.input := rfl
@[simp] theorem complete_draws (kind : Kind) (p : Bool) (pos : BitVec 5) (info : Byte) (s : State) :
    (complete kind p pos info s).draws = s.draws := rfl

@[simp] theorem completeOk_val (s : State) :
    (completeOk s).val = s.val := rfl
@[simp] theorem completeOk_sym (s : State) :
    (completeOk s).sym = s.sym := rfl
@[simp] theorem completeOk_stat (s : State) :
    (completeOk s).stat = statCompleted s.stat 0#4 false 0#5 0#8 := rfl
@[simp] theorem completeOk_received (s : State) :
    (completeOk s).received = s.received := rfl
@[simp] theorem completeOk_input (s : State) :
    (completeOk s).input = s.input := rfl
@[simp] theorem completeOk_draws (s : State) :
    (completeOk s).draws = s.draws := rfl

@[simp] theorem advanceDraws_val (s : State) :
    (advanceDraws s).val = s.val := rfl
@[simp] theorem advanceDraws_sym (s : State) :
    (advanceDraws s).sym = s.sym := rfl
@[simp] theorem advanceDraws_stat (s : State) :
    (advanceDraws s).stat = s.stat := rfl
@[simp] theorem advanceDraws_received (s : State) :
    (advanceDraws s).received = s.received := rfl
@[simp] theorem advanceDraws_input (s : State) :
    (advanceDraws s).input = s.input := rfl
@[simp] theorem advanceDraws_draws (s : State) :
    (advanceDraws s).draws = s.draws + 1 := rfl

@[simp] theorem takeFault_val (op : Byte) (s : State) :
    (takeFault op s).val = s.val := rfl
@[simp] theorem takeFault_sym (op : Byte) (s : State) :
    (takeFault op s).sym = s.sym := rfl
@[simp] theorem takeFault_stat (op : Byte) (s : State) :
    (takeFault op s).stat = statFaulted s.stat op := rfl
@[simp] theorem takeFault_received (op : Byte) (s : State) :
    (takeFault op s).received = s.received := rfl
@[simp] theorem takeFault_input (op : Byte) (s : State) :
    (takeFault op s).input = s.input := rfl
@[simp] theorem takeFault_draws (op : Byte) (s : State) :
    (takeFault op s).draws = s.draws := rfl

@[simp] theorem applyReset_val (rest : List HostInput) (s : State) :
    (applyReset rest s).val = State.reset.val := rfl
@[simp] theorem applyReset_sym (rest : List HostInput) (s : State) :
    (applyReset rest s).sym = State.reset.sym := rfl
@[simp] theorem applyReset_stat (rest : List HostInput) (s : State) :
    (applyReset rest s).stat = 0#32 := rfl
@[simp] theorem applyReset_received (rest : List HostInput) (s : State) :
    (applyReset rest s).received = [] := rfl
@[simp] theorem applyReset_input (rest : List HostInput) (s : State) :
    (applyReset rest s).input = rest := rfl
@[simp] theorem applyReset_draws (rest : List HostInput) (s : State) :
    (applyReset rest s).draws = s.draws := rfl

@[simp] theorem consume_val (rest : List HostInput) (s : State) :
    (consume rest s).val = s.val := rfl
@[simp] theorem consume_sym (rest : List HostInput) (s : State) :
    (consume rest s).sym = s.sym := rfl
@[simp] theorem consume_stat (rest : List HostInput) (s : State) :
    (consume rest s).stat = s.stat := rfl
@[simp] theorem consume_received (rest : List HostInput) (s : State) :
    (consume rest s).received = [] := rfl
@[simp] theorem consume_input (rest : List HostInput) (s : State) :
    (consume rest s).input = rest := rfl
@[simp] theorem consume_draws (rest : List HostInput) (s : State) :
    (consume rest s).draws = s.draws := rfl

@[simp] theorem holdReceived_val (bytes : List Byte) (s : State) :
    (holdReceived bytes s).val = s.val := rfl
@[simp] theorem holdReceived_sym (bytes : List Byte) (s : State) :
    (holdReceived bytes s).sym = s.sym := rfl
@[simp] theorem holdReceived_stat (bytes : List Byte) (s : State) :
    (holdReceived bytes s).stat = s.stat := rfl
@[simp] theorem holdReceived_received (bytes : List Byte) (s : State) :
    (holdReceived bytes s).received = bytes := rfl
@[simp] theorem holdReceived_input (bytes : List Byte) (s : State) :
    (holdReceived bytes s).input = [] := rfl
@[simp] theorem holdReceived_draws (bytes : List Byte) (s : State) :
    (holdReceived bytes s).draws = s.draws := rfl

@[simp] theorem placePacket_val (bytes : List Byte) (s : State) :
    (placePacket bytes s).val = s.val := rfl
@[simp] theorem placePacket_sym (bytes : List Byte) (s : State) :
    (placePacket bytes s).sym = s.sym := rfl
@[simp] theorem placePacket_stat (bytes : List Byte) (s : State) :
    (placePacket bytes s).stat = s.stat := rfl
@[simp] theorem placePacket_received (bytes : List Byte) (s : State) :
    (placePacket bytes s).received = [] := rfl
@[simp] theorem placePacket_input (bytes : List Byte) (s : State) :
    (placePacket bytes s).input = bytes.map HostInput.byte ++ s.input := rfl
@[simp] theorem placePacket_draws (bytes : List Byte) (s : State) :
    (placePacket bytes s).draws = s.draws := rfl

@[simp] theorem hostSend_val (bytes : List Byte) (s : State) :
    (hostSend bytes s).val = s.val := rfl
@[simp] theorem hostSend_sym (bytes : List Byte) (s : State) :
    (hostSend bytes s).sym = s.sym := rfl
@[simp] theorem hostSend_stat (bytes : List Byte) (s : State) :
    (hostSend bytes s).stat = s.stat := rfl
@[simp] theorem hostSend_received (bytes : List Byte) (s : State) :
    (hostSend bytes s).received = s.received := rfl
@[simp] theorem hostSend_input (bytes : List Byte) (s : State) :
    (hostSend bytes s).input = s.input ++ bytes.map HostInput.byte := rfl
@[simp] theorem hostSend_draws (bytes : List Byte) (s : State) :
    (hostSend bytes s).draws = s.draws := rfl

@[simp] theorem hostAssertReset_val (presented : List Byte) (s : State) :
    (hostAssertReset presented s).val = s.val := rfl
@[simp] theorem hostAssertReset_sym (presented : List Byte) (s : State) :
    (hostAssertReset presented s).sym = s.sym := rfl
@[simp] theorem hostAssertReset_stat (presented : List Byte) (s : State) :
    (hostAssertReset presented s).stat = s.stat := rfl
@[simp] theorem hostAssertReset_received (presented : List Byte) (s : State) :
    (hostAssertReset presented s).received = s.received := rfl
@[simp] theorem hostAssertReset_input (presented : List Byte) (s : State) :
    (hostAssertReset presented s).input = s.input ++ [HostInput.rst presented] := rfl
@[simp] theorem hostAssertReset_draws (presented : List Byte) (s : State) :
    (hostAssertReset presented s).draws = s.draws := rfl

end Sys2Proof.Machine
end

