-- ==== Sys2Proof/Laws/Flags.lean ====
section
/-! SUPPORT. STAT: reading a field of a word that `statWord` built, and what a completion and a fault entry do to each
field (spec 10_state.md rules R23, R33; 60_exceptions.md rule R186). -/

namespace Sys2Proof.Machine

@[simp] theorem statKind_statWord (fop info : Byte) (pos : BitVec 5) (flt p : Bool) (kind : BitVec 4) :
    statKind (statWord fop info pos flt p kind) = kind := by
  ext i hi
  simp only [statKind, statWord, BitVec.getElem_extractLsb', BitVec.getLsbD_append]
  simp [hi]

@[simp] theorem statP_statWord (fop info : Byte) (pos : BitVec 5) (flt p : Bool) (kind : BitVec 4) :
    statP (statWord fop info pos flt p kind) = p := by
  simp only [statP, statWord, BitVec.getLsbD_append]
  simp

@[simp] theorem statFlt_statWord (fop info : Byte) (pos : BitVec 5) (flt p : Bool) (kind : BitVec 4) :
    statFlt (statWord fop info pos flt p kind) = flt := by
  simp only [statFlt, statWord, BitVec.getLsbD_append]
  simp

@[simp] theorem statPos_statWord (fop info : Byte) (pos : BitVec 5) (flt p : Bool) (kind : BitVec 4) :
    statPos (statWord fop info pos flt p kind) = pos := by
  ext i hi
  have h : i < 5 := hi
  simp only [statPos, statWord, BitVec.getElem_extractLsb', BitVec.getLsbD_append]
  simp [show ¬ 8 + i < 4 by omega, show ¬ 8 + i - 4 < 1 by omega, show ¬ 8 + i - 4 - 1 < 2 by omega,
    show ¬ 8 + i - 4 - 1 - 2 < 1 by omega, show 8 + i - 4 - 1 - 2 - 1 = i by omega, h]

@[simp] theorem statInfo_statWord (fop info : Byte) (pos : BitVec 5) (flt p : Bool) (kind : BitVec 4) :
    statInfo (statWord fop info pos flt p kind) = info := by
  ext i hi
  have h : i < 8 := hi
  simp only [statInfo, statWord, BitVec.getElem_extractLsb', BitVec.getLsbD_append]
  simp [show ¬ 16 + i < 4 by omega, show ¬ 16 + i - 4 < 1 by omega, show ¬ 16 + i - 4 - 1 < 2 by omega,
    show ¬ 16 + i - 4 - 1 - 2 < 1 by omega, show ¬ 16 + i - 4 - 1 - 2 - 1 < 5 by omega,
    show ¬ 16 + i - 4 - 1 - 2 - 1 - 5 < 3 by omega, show 16 + i - 4 - 1 - 2 - 1 - 5 - 3 = i by omega, h]

@[simp] theorem statFop_statWord (fop info : Byte) (pos : BitVec 5) (flt p : Bool) (kind : BitVec 4) :
    statFop (statWord fop info pos flt p kind) = fop := by
  ext i hi
  have h : i < 8 := hi
  simp only [statFop, statWord, BitVec.getElem_extractLsb', BitVec.getLsbD_append]
  simp [show ¬ 24 + i < 4 by omega, show ¬ 24 + i - 4 < 1 by omega, show ¬ 24 + i - 4 - 1 < 2 by omega,
    show ¬ 24 + i - 4 - 1 - 2 < 1 by omega, show ¬ 24 + i - 4 - 1 - 2 - 1 < 5 by omega,
    show ¬ 24 + i - 4 - 1 - 2 - 1 - 5 < 3 by omega, show ¬ 24 + i - 4 - 1 - 2 - 1 - 5 - 3 < 8 by omega,
    show 24 + i - 4 - 1 - 2 - 1 - 5 - 3 - 8 = i by omega, h]

/-- The hard-wired fields of a built word are 0 (R23). -/
@[simp] theorem statReserved_statWord (fop info : Byte) (pos : BitVec 5) (flt p : Bool) (kind : BitVec 4) :
    statReserved (statWord fop info pos flt p kind) = 0#5 := by
  apply BitVec.eq_of_getLsbD_eq
  intro i hi
  rcases (by omega : i = 0 ∨ i = 1 ∨ i = 2 ∨ i = 3 ∨ i = 4) with h | h | h | h | h <;> subst h <;>
    simp only [statReserved, statWord, BitVec.getLsbD_append, BitVec.getLsbD_extractLsb'] <;> simp

section completed
variable (w : BitVec 32) (kind : BitVec 4) (p : Bool) (pos : BitVec 5) (info op : Byte)

@[simp] theorem statKind_statCompleted : statKind (statCompleted w kind p pos info) = kind := by simp [statCompleted]
@[simp] theorem statP_statCompleted : statP (statCompleted w kind p pos info) = p := by simp [statCompleted]
@[simp] theorem statFlt_statCompleted : statFlt (statCompleted w kind p pos info) = statFlt w := by simp [statCompleted]
@[simp] theorem statPos_statCompleted : statPos (statCompleted w kind p pos info) = pos := by simp [statCompleted]
@[simp] theorem statInfo_statCompleted : statInfo (statCompleted w kind p pos info) = info := by simp [statCompleted]
@[simp] theorem statFop_statCompleted : statFop (statCompleted w kind p pos info) = statFop w := by simp [statCompleted]
@[simp] theorem statReserved_statCompleted : statReserved (statCompleted w kind p pos info) = 0#5 := by
  simp [statCompleted]

@[simp] theorem statKind_statFaulted : statKind (statFaulted w op) = statKind w := by simp [statFaulted]
@[simp] theorem statP_statFaulted : statP (statFaulted w op) = statP w := by simp [statFaulted]
@[simp] theorem statFlt_statFaulted : statFlt (statFaulted w op) = true := by simp [statFaulted]
@[simp] theorem statPos_statFaulted : statPos (statFaulted w op) = statPos w := by simp [statFaulted]
@[simp] theorem statInfo_statFaulted : statInfo (statFaulted w op) = statInfo w := by simp [statFaulted]
@[simp] theorem statFop_statFaulted : statFop (statFaulted w op) = op := by simp [statFaulted]
@[simp] theorem statReserved_statFaulted : statReserved (statFaulted w op) = 0#5 := by simp [statFaulted]

@[simp] theorem statKind_statRead : statKind (statRead w) = statKind w := by simp [statRead]
@[simp] theorem statP_statRead : statP (statRead w) = statP w := by simp [statRead]
@[simp] theorem statFlt_statRead : statFlt (statRead w) = statFlt w := by simp [statRead]
@[simp] theorem statPos_statRead : statPos (statRead w) = statPos w := by simp [statRead]
@[simp] theorem statInfo_statRead : statInfo (statRead w) = statInfo w := by simp [statRead]
@[simp] theorem statFop_statRead : statFop (statRead w) = statFop w := by simp [statRead]
@[simp] theorem statReserved_statRead : statReserved (statRead w) = 0#5 := by simp [statRead]

/-- A completed command overwrites the report of the one before (R33). -/
@[simp] theorem statCompleted_statCompleted (kind' : BitVec 4) (p' : Bool) (pos' : BitVec 5) (info' : Byte) :
    statCompleted (statCompleted w kind p pos info) kind' p' pos' info' = statCompleted w kind' p' pos' info' := by
  simp [statCompleted]

end completed

@[simp] theorem faulted_complete (kind : Kind) (p : Bool) (pos : BitVec 5) (info : Byte) (s : State) :
    faulted (complete kind p pos info s) = faulted s := by simp [faulted]
@[simp] theorem faulted_completeOk (s : State) : faulted (completeOk s) = faulted s := by simp [faulted]
@[simp] theorem faulted_writeVal (a : Value) (s : State) : faulted (writeVal a s) = faulted s := rfl
@[simp] theorem faulted_writeSym (a : Suffix) (s : State) : faulted (writeSym a s) = faulted s := rfl
@[simp] theorem faulted_advanceDraws (s : State) : faulted (advanceDraws s) = faulted s := rfl
@[simp] theorem faulted_consume (rest : List HostInput) (s : State) : faulted (consume rest s) = faulted s := rfl
@[simp] theorem faulted_holdReceived (bytes : List Byte) (s : State) : faulted (holdReceived bytes s) = faulted s := rfl
@[simp] theorem faulted_takeFault (op : Byte) (s : State) : faulted (takeFault op s) = true := by simp [faulted]
@[simp] theorem faulted_applyReset (rest : List HostInput) (s : State) : faulted (applyReset rest s) = false := by
  simp [faulted, statFlt]
@[simp] theorem faulted_hostSend (bytes : List Byte) (s : State) : faulted (hostSend bytes s) = faulted s := rfl
@[simp] theorem faulted_hostAssertReset (bytes : List Byte) (s : State) :
    faulted (hostAssertReset bytes s) = faulted s := rfl

end Sys2Proof.Machine
end

