-- ==== Sys2Proof/Laws/Ops.lean ====
section
/-! SUPPORT. One lemma per shared operation: the views of the registers, `whileRunning`, the cutting of the host's input
at the next reset, and what the block meets at its inputs. -/

namespace Sys2Proof.Machine

/-- One more digit at the end. -/
theorem concatDigits_append_singleton {w : Nat} (ds : List (BitVec w)) (d : BitVec w) :
    concatDigits (ds ++ [d]) = concatDigits ds * 2 ^ w + d.toNat := by simp [concatDigits]

/-- `n` digits of `w` bits spell a number of `w * n` bits. -/
theorem concatDigits_lt {w : Nat} (ds : List (BitVec w)) : concatDigits ds < 2 ^ (w * ds.length) := by
  induction ds using List.reverseRecOn with
  | nil => simp [concatDigits]
  | append_singleton ds d ih =>
    have hd := d.isLt
    rw [concatDigits_append_singleton, List.length_append, List.length_singleton, Nat.mul_succ, Nat.pow_add]
    nlinarith

/-- Each digit is the slice of the number at its place. -/
theorem concatDigits_digit {w : Nat} (ds : List (BitVec w)) (k : Nat) (hk : k < ds.length) :
    concatDigits ds / 2 ^ (w * (ds.length - 1 - k)) % 2 ^ w = ds[k].toNat := by
  induction ds using List.reverseRecOn with
  | nil => simp at hk
  | append_singleton ds d ih =>
    have hd := d.isLt
    have hpos : 0 < 2 ^ w := Nat.two_pow_pos w
    rw [concatDigits_append_singleton]
    simp only [List.length_append, List.length_singleton] at hk ⊢
    by_cases h : k < ds.length
    · have he : w * (ds.length + 1 - 1 - k) = w + w * (ds.length - 1 - k) := by
        rw [show ds.length + 1 - 1 - k = (ds.length - 1 - k) + 1 by omega, Nat.mul_succ, Nat.add_comm]
      rw [he, Nat.pow_add, ← Nat.div_div_eq_div_mul, Nat.mul_comm (concatDigits ds), Nat.mul_add_div hpos,
        Nat.div_eq_of_lt hd, Nat.add_zero, ih h, List.getElem_append_left h]
    · have hk' : k = ds.length := by omega
      subst hk'
      simp [Nat.mod_eq_of_lt hd]

/-- The slices of a number spell it again. -/
theorem concatDigits_slices (w : Nat) (m n : Nat) :
    concatDigits (List.ofFn fun i : Fin n => BitVec.ofNat w (m / 2 ^ (w * (n - 1 - i.val)))) = m % 2 ^ (w * n) := by
  induction n generalizing m with
  | zero => simp [concatDigits, Nat.mod_one]
  | succ n ih =>
    rw [List.ofFn_succ_last, concatDigits_append_singleton]
    have h : (fun i : Fin n => BitVec.ofNat w (m / 2 ^ (w * (n + 1 - 1 - (i.castSucc).val)))) =
        fun i : Fin n => BitVec.ofNat w ((m / 2 ^ w) / 2 ^ (w * (n - 1 - i.val))) := by
      funext i
      have hi := i.isLt
      rw [Nat.div_div_eq_div_mul, ← Nat.pow_add, Fin.val_castSucc,
        show w * (n + 1 - 1 - i.val) = w + w * (n - 1 - i.val) by
          rw [show n + 1 - 1 - i.val = (n - 1 - i.val) + 1 by omega, Nat.mul_succ, Nat.add_comm]]
    rw [h, ih]
    simp only [Fin.val_last, BitVec.toNat_ofNat, Nat.add_sub_cancel, Nat.sub_self, Nat.mul_zero, Nat.pow_zero,
      Nat.div_one]
    rw [Nat.mul_succ, Nat.add_comm (w * n) w, Nat.pow_add, Nat.mod_mul, Nat.mul_comm (2 ^ w), Nat.add_comm]

/-- Byte `i` of a number (spec 00_scope.md rule R9). -/
theorem bytes16_getElem (n : BitVec 128) (i : Nat) (hi : i < 16) :
    (bytes16 n)[i] = n.extractLsb' (120 - 8 * i) 8 := by simp [bytes16]

/-- The bytes of the number of a value (R9). -/
theorem bytes16_v128 (a : Value) : bytes16 (v128 a) = a := by
  apply Vector.ext
  intro i hi
  have hl := concatDigits_lt a.toList
  have hd := concatDigits_digit a.toList i (by simpa using hi)
  simp only [Vector.length_toList, Vector.getElem_toList] at hl hd
  apply BitVec.eq_of_toNat_eq
  rw [bytes16_getElem _ _ hi, BitVec.extractLsb'_toNat, v128, BitVec.toNat_ofNat, Nat.mod_eq_of_lt hl,
    Nat.shiftRight_eq_div_pow, ← hd, show 8 * (16 - 1 - i) = 120 - 8 * i by omega]

/-- The number of the bytes of a number (R9). -/
theorem v128_bytes16 (n : BitVec 128) : v128 (bytes16 n) = n := by
  have h := concatDigits_slices 8 n.toNat 16
  have he : (bytes16 n).toList =
      List.ofFn fun i : Fin 16 => BitVec.ofNat 8 (n.toNat / 2 ^ (8 * (16 - 1 - i.val))) := by
    rw [bytes16, Vector.toList_ofFn]
    congr 1
    funext i
    apply BitVec.eq_of_toNat_eq
    rw [BitVec.extractLsb'_toNat, BitVec.toNat_ofNat, Nat.shiftRight_eq_div_pow,
      show 8 * (16 - 1 - i.val) = 120 - 8 * i.val by omega]
  apply BitVec.eq_of_toNat_eq
  rw [v128, he, h, BitVec.toNat_ofNat, Nat.mod_mod, Nat.mod_eq_of_lt n.isLt]

/-- Character `k` of SYM_OUT (R29). -/
theorem s208_slice (s : Suffix) (k : Nat) (hk : k < 26) : (s208 s).extractLsb' (200 - 8 * k) 8 = s[k] := by
  have hl := concatDigits_lt s.toList
  have hd := concatDigits_digit s.toList k (by simpa using hk)
  simp only [Vector.length_toList, Vector.getElem_toList] at hl hd
  apply BitVec.eq_of_toNat_eq
  rw [BitVec.extractLsb'_toNat, s208, BitVec.toNat_ofNat, Nat.mod_eq_of_lt hl, Nat.shiftRight_eq_div_pow, ← hd,
    show 8 * (26 - 1 - k) = 200 - 8 * k by omega]

/-- `whileRunning` answers a next state exactly where FLT = 0 (R25, R33). -/
theorem whileRunning_eq_next_iff (s t u : State) : whileRunning s t = .next u ↔ faulted s = false ∧ u = t := by
  unfold whileRunning
  cases h : faulted s <;> simp [eq_comm]

@[simp] theorem whileRunning_running {s t : State} (h : faulted s = false) : whileRunning s t = .next t := by
  simp [whileRunning, h]

@[simp] theorem whileRunning_faulted {s t : State} (h : faulted s = true) :
    whileRunning s t = .fault (.illegalCommand (statFop s.stat)) := by
  simp [whileRunning, h]

/-- `whileRunning` never refuses. -/
theorem whileRunning_ne_refused (s t : State) (r : Refusal) : whileRunning s t ≠ .refused r := by
  unfold whileRunning
  split <;> simp

@[simp] theorem splitAtReset_nil : splitAtReset [] = ([], []) := rfl

@[simp] theorem splitAtReset_rst (presented : List Byte) (more : List HostInput) :
    splitAtReset (.rst presented :: more) = ([], .rst presented :: more) := rfl

@[simp] theorem splitAtReset_byte (b : Byte) (more : List HostInput) :
    splitAtReset (.byte b :: more) = (b :: (splitAtReset more).1, (splitAtReset more).2) := rfl

/-- Bytes before the next reset are all of them where there is no reset. -/
@[simp] theorem splitAtReset_bytes (bytes : List Byte) :
    splitAtReset (bytes.map HostInput.byte) = (bytes, []) := by
  induction bytes with
  | nil => rfl
  | cons b bytes ih => simp [ih]

/-- Bytes in front of anything go to the front of the bytes before the next reset. -/
@[simp] theorem splitAtReset_bytes_append (bytes : List Byte) (input : List HostInput) :
    splitAtReset (bytes.map HostInput.byte ++ input) =
      (bytes ++ (splitAtReset input).1, (splitAtReset input).2) := by
  induction bytes with
  | nil => rfl
  | cons b bytes ih => simp [ih]

/-- Everything `splitAtReset` can do: it cuts the input at the next reset. -/
theorem splitAtReset_spec (input : List HostInput) :
    input = (splitAtReset input).1.map HostInput.byte ++ (splitAtReset input).2 ∧
    ((splitAtReset input).2 = [] ∨ ∃ presented more, (splitAtReset input).2 = .rst presented :: more) := by
  induction input with
  | nil => simp [splitAtReset]
  | cons e input ih =>
    cases e with
    | byte b => exact ⟨by simpa [splitAtReset] using ih.1, by simpa [splitAtReset] using ih.2⟩
    | rst presented => simp [splitAtReset]

/-- Everything a block that is not faulted can meet (R64, R66, R70, R210). -/
theorem arrival_running_cases {s : State} (h : faulted s = false) :
    (∃ i rest, decode (s.received ++ (splitAtReset s.input).1) = .command i rest ∧
      arrival s = .command i (rest.map HostInput.byte ++ (splitAtReset s.input).2)) ∨
    (∃ op rest, decode (s.received ++ (splitAtReset s.input).1) = .illegalOpcode op rest ∧
      arrival s = .illegal op (rest.map HostInput.byte ++ (splitAtReset s.input).2)) ∨
    (decode (s.received ++ (splitAtReset s.input).1) = .incomplete ∧
      ((∃ presented more, (splitAtReset s.input).2 = .rst presented :: more ∧ arrival s = .reset more) ∨
       ((splitAtReset s.input).2 = [] ∧ s.received ++ (splitAtReset s.input).1 = [] ∧ arrival s = .nothing) ∨
       ((splitAtReset s.input).2 = [] ∧ s.received ++ (splitAtReset s.input).1 ≠ [] ∧
          arrival s = .unfinished (s.received ++ (splitAtReset s.input).1)))) := by
  have ha : arrival s = arrivalRunning s.received s.input := by simp [arrival, h]
  rw [ha, arrivalRunning]
  cases hd : decode (s.received ++ (splitAtReset s.input).1) with
  | command i rest => exact .inl ⟨i, rest, rfl, rfl⟩
  | illegalOpcode op rest => exact .inr (.inl ⟨op, rest, rfl, rfl⟩)
  | incomplete =>
    refine .inr (.inr ⟨rfl, ?_⟩)
    obtain h2 | ⟨presented, more, h2⟩ := (splitAtReset_spec s.input).2
    · by_cases he : s.received ++ (splitAtReset s.input).1 = []
      · refine .inr (.inl ⟨h2, he, ?_⟩)
        simp only [h2, he]
        rfl
      · refine .inr (.inr ⟨h2, he, ?_⟩)
        simp only [h2, arrivalCutShort, he, if_false]
    · exact .inl ⟨presented, more, h2, by simp only [h2, arrivalCutShort]⟩

/-- Everything a faulted block can meet (R185, R187). -/
theorem arrival_faulted_cases {s : State} (h : faulted s = true) :
    (∃ bytes : List Byte, ∃ presented more, s.input = bytes.map HostInput.byte ++ .rst presented :: more ∧
      arrival s = .reset more) ∨
    (∃ bytes : List Byte, s.input = bytes.map HostInput.byte ∧ arrival s = .stopped) := by
  have ha : arrival s = arrivalFaulted s.input := by simp [arrival, h]
  rw [ha, arrivalFaulted, afterReset]
  obtain ⟨he, h2 | ⟨presented, more, h2⟩⟩ := splitAtReset_spec s.input
  · exact .inr ⟨(splitAtReset s.input).1, by simpa [h2] using he, by simp [h2]⟩
  · exact .inl ⟨(splitAtReset s.input).1, presented, more, by simpa [h2] using he, by simp [h2]⟩

end Sys2Proof.Machine
end

