-- ==== Sys2Proof/Laws/Codec.lean ====
section
/-! SUPPORT. The codec's functions: the two mappers are inverse, the groups and the reassembly are inverse, and what the
alphabet check and `decode` can answer (spec 41_base32_codec.md). -/

namespace Sys2Proof.Machine

/-- `val5(sym5(g)) = g` (R92). -/
@[simp] theorem val5_sym5 (g : BitVec 5) : val5 (sym5 g) = some g := by
  revert g
  decide

/-- `sym5(val5(c)) = c` for every valid `c` (R92). -/
theorem sym5_of_val5 : ∀ (c : Byte) (g : BitVec 5), val5 c = some g → sym5 g = c := by
  intro c g
  revert c
  revert g
  decide

/-- Group `k` of the reassembled quantity is the group it was made of (R94, R99). -/
theorem group_reassembled (g : Groups) (k : Nat) (hk : k < 26) : group (reassembled g) k = g[k] := by
  have hl := concatDigits_lt g.toList
  have hd := concatDigits_digit g.toList k (by simpa using hk)
  simp only [Vector.length_toList, Vector.getElem_toList] at hl hd
  apply BitVec.eq_of_toNat_eq
  rw [group, BitVec.extractLsb'_toNat, reassembled, BitVec.toNat_ofNat, Nat.mod_eq_of_lt hl,
    Nat.shiftRight_eq_div_pow, ← hd, show 5 * (26 - 1 - k) = 125 - 5 * k by omega]

/-- The 130-bit quantity is reassembled from its groups (R94, R99). -/
theorem reassembled_groups (n : BitVec 130) : reassembled (Vector.ofFn fun k => group n k.val) = n := by
  have h := concatDigits_slices 5 n.toNat 26
  have he : (Vector.ofFn fun k : Fin 26 => group n k.val).toList =
      List.ofFn fun k : Fin 26 => BitVec.ofNat 5 (n.toNat / 2 ^ (5 * (26 - 1 - k.val))) := by
    rw [Vector.toList_ofFn]
    congr 1
    funext k
    apply BitVec.eq_of_toNat_eq
    rw [group, BitVec.extractLsb'_toNat, BitVec.toNat_ofNat, Nat.shiftRight_eq_div_pow,
      show 5 * (26 - 1 - k.val) = 125 - 5 * k.val by omega]
  apply BitVec.eq_of_toNat_eq
  rw [reassembled, he, h, BitVec.toNat_ofNat, Nat.mod_mod, Nat.mod_eq_of_lt n.isLt]

/-- The alphabet check finds nothing exactly where all 26 characters are symbols (R97). -/
theorem firstInvalid_eq_none_iff (s : Suffix) : firstInvalid s = none ↔ ∀ k : Fin 26, isSymbol s[k] = true := by
  simp [firstInvalid, List.find?_eq_none]

/-- Everything `decode` can answer (R96, R97, R98). -/
theorem codecDecode_cases (s : Suffix) :
    (∃ k, firstInvalid s = some k ∧ codecDecode s = .invalidSuffixAlphabet k s[k]) ∨
    (firstInvalid s = none ∧ 7 < (groupsOf s)[0].toNat ∧ codecDecode s = .suffixOverflow s[0]) ∨
    (firstInvalid s = none ∧ (groupsOf s)[0].toNat ≤ 7 ∧ codecDecode s = .value (valueOfGroups (groupsOf s))) := by
  unfold codecDecode
  cases h : firstInvalid s with
  | some k => exact .inl ⟨k, rfl, rfl⟩
  | none =>
    by_cases h7 : 7 < (groupsOf s)[0].toNat
    · exact .inr (.inl ⟨rfl, h7, by simp [Config.firstMax, h7]⟩)
    · exact .inr (.inr ⟨rfl, by omega, by simp [Config.firstMax, h7]⟩)

end Sys2Proof.Machine
end

