-- ==== Sys2Proof/Laws/HostLayer.lean ====
section
/-! SUPPORT. Everything the prefix validator can answer (spec 45_host_contract.md rule R143). -/

namespace Sys2Proof.Machine

/-- The validator answers the prefix itself, or one of its three failures, in their order. -/
theorem validatePrefix_cases (arg : HostArg) :
    ((∀ p, arg ≠ .text p) ∧ validatePrefix arg = .error (failWith .invalidPrefixType arg)) ∨
    ∃ p, arg = .text p ∧
      ((63 < p.length ∧ validatePrefix arg = .error (failWith .prefixTooLong arg)) ∨
       (p.length ≤ 63 ∧ prefixGrammar p = true ∧ validatePrefix arg = .ok p) ∨
       (p.length ≤ 63 ∧ prefixGrammar p = false ∧ validatePrefix arg =
          .error { failWith .invalidPrefixFormat arg with pattern := some (Config.violatedPattern p) })) := by
  cases arg with
  | notText => exact .inl ⟨nofun, rfl⟩
  | symbol name => exact .inl ⟨nofun, rfl⟩
  | text p =>
    refine .inr ⟨p, rfl, ?_⟩
    by_cases hl : 63 < p.length
    · exact .inl ⟨hl, by simp [validatePrefix, hl]⟩
    · cases hg : prefixGrammar p
      · exact .inr (.inr ⟨by omega, rfl, by simp [validatePrefix, hl, hg]⟩)
      · exact .inr (.inl ⟨by omega, rfl, by simp [validatePrefix, hl, hg]⟩)

end Sys2Proof.Machine
end

