-- ==== Sys2Proof/Laws/PerInstr.lean ====
section
/-! SUPPORT. Statements about every command as syntax, one lemma per constructor: the length of its packet is the one
its opcode byte implies, and the packet is well formed (spec 30_encoding.md rules R60, R64). -/

namespace Sys2Proof.Laws.PacketShape

/-- The packet of `i` begins with an assigned opcode byte and has the length that byte implies. -/
def Statement (i : Instr) : Prop :=
  opcodeAssigned (opcodeOf i) = true ∧ packetLength (opcodeOf i) = some (encode i).length ∧ i.wellFormed = true

theorem ldv (immV : Value) : Statement (.ldv immV) := ⟨rfl, packetLength_opcodeOf _, Instr.wellFormed_all _⟩

theorem lds (immS : Suffix) : Statement (.lds immS) := ⟨rfl, packetLength_opcodeOf _, Instr.wellFormed_all _⟩

theorem enc : Statement .enc := ⟨rfl, packetLength_opcodeOf _, Instr.wellFormed_all _⟩

theorem dec : Statement .dec := ⟨rfl, packetLength_opcodeOf _, Instr.wellFormed_all _⟩

theorem gen : Statement .gen := ⟨rfl, packetLength_opcodeOf _, Instr.wellFormed_all _⟩

theorem chk7 : Statement .chk7 := ⟨rfl, packetLength_opcodeOf _, Instr.wellFormed_all _⟩

end Sys2Proof.Laws.PacketShape
end

