-- ==== Sys2Proof/Laws/Step.lean ====
section
/-! SUPPORT. Everything a command and a step can do, said once. -/

namespace Sys2Proof.Machine

/-- The state a command leaves where FLT = 0: the meaning without its guard. -/
def effect (i : Instr) (s : State) : State :=
  match i with
  | .ldv immV => completeOk (writeVal (valueOperand immV) s)
  | .lds immS => completeOk (writeSym (stringOperand immS) s)
  | .enc => completeOk (writeSym (codecEncode s.val) s)
  | .dec => applyDecoding (codecDecode s.sym) s
  | .gen => advanceDraws (generated (clockAnswer s) (randomAnswer s) s)
  | .chk7 => complete .ok (isV7 s.val) 0#5 0#8 s

/-- Every command is its effect under the one guard (R25, R33). -/
theorem exec_eq (i : Instr) (s : State) : exec i s = whileRunning s (effect i s) := by
  cases i <;> rfl

/-- Everything a command can answer: its effect where FLT = 0, the fault where FLT = 1. -/
theorem exec_cases (i : Instr) (s : State) :
    (faulted s = false ∧ exec i s = .next (effect i s)) ∨
    (faulted s = true ∧ exec i s = .fault (.illegalCommand (statFop s.stat))) := by
  rw [exec_eq]
  cases h : faulted s
  · exact .inl ⟨rfl, by simp [h]⟩
  · exact .inr ⟨rfl, by simp [h]⟩

@[simp] theorem valueOperand_eq (immV : Value) : valueOperand immV = immV := by
  ext i hi
  simp [valueOperand]

@[simp] theorem stringOperand_eq (immS : Suffix) : stringOperand immS = immS := by
  ext i hi
  simp [stringOperand]

/-- Everything a step of a block that is not faulted can answer. -/
theorem step_running_cases {s : State} (h : faulted s = false) :
    (∃ i rest, decode (s.received ++ (splitAtReset s.input).1) = .command i rest ∧
      step s = .next (effect i (consume (rest.map HostInput.byte ++ (splitAtReset s.input).2) s))) ∨
    (∃ op rest, decode (s.received ++ (splitAtReset s.input).1) = .illegalOpcode op rest ∧
      step s = .next (takeFault op (consume (rest.map HostInput.byte ++ (splitAtReset s.input).2) s))) ∨
    (decode (s.received ++ (splitAtReset s.input).1) = .incomplete ∧
      ((∃ presented more, (splitAtReset s.input).2 = .rst presented :: more ∧ step s = .next (applyReset more s)) ∨
       ((splitAtReset s.input).2 = [] ∧ s.received ++ (splitAtReset s.input).1 = [] ∧ step s = .next s) ∨
       ((splitAtReset s.input).2 = [] ∧ s.received ++ (splitAtReset s.input).1 ≠ [] ∧
          step s = .next (holdReceived (s.received ++ (splitAtReset s.input).1) s)))) := by
  obtain ⟨i, rest, hd, ha⟩ | ⟨op, rest, hd, ha⟩ | ⟨hd, ⟨pr, more, h2, ha⟩ | ⟨h2, he, ha⟩ | ⟨h2, he, ha⟩⟩ :=
    arrival_running_cases h
  · refine .inl ⟨i, rest, hd, ?_⟩
    simp only [step, ha, exec_eq]
    exact whileRunning_running (by simpa using h)
  · exact .inr (.inl ⟨op, rest, hd, by simp only [step, ha]⟩)
  · exact .inr (.inr ⟨hd, .inl ⟨pr, more, h2, by simp only [step, ha]⟩⟩)
  · exact .inr (.inr ⟨hd, .inr (.inl ⟨h2, he, by simp only [step, ha]⟩)⟩)
  · exact .inr (.inr ⟨hd, .inr (.inr ⟨h2, he, by simp only [step, ha]⟩)⟩)

/-- Everything a step of a faulted block can answer. -/
theorem step_faulted_cases {s : State} (h : faulted s = true) :
    (∃ bytes : List Byte, ∃ presented more,
      s.input = bytes.map HostInput.byte ++ .rst presented :: more ∧ step s = .next (applyReset more s)) ∨
    (∃ bytes : List Byte, s.input = bytes.map HostInput.byte ∧
      step s = .fault (.illegalCommand (statFop s.stat))) := by
  obtain ⟨bytes, pr, more, hi, ha⟩ | ⟨bytes, hi, ha⟩ := arrival_faulted_cases h
  · exact .inl ⟨bytes, pr, more, hi, by simp only [step, ha]⟩
  · exact .inr ⟨bytes, hi, by simp only [step, ha]⟩

end Sys2Proof.Machine
end

