-- ==== Sys2Proof/Tests/Slice0.lean ====
section
/-! SUPPORT. Tests. The expected results are the spec's own (95_test_vectors.md, named T, V, X, G, K, F, S, P, or the
numbered rules); the witnesses show that the hypotheses of every obligation can be met. -/

open Sys2Proof Sys2Proof.Machine

namespace Sys2Proof.Tests

/-! ## Helpers -/

/-- A value from its 32 hexadecimal digits. -/
def val (n : Nat) : Value := Vector.ofFn fun i => BitVec.ofNat 8 (n / 256 ^ (15 - i.val))

/-- A string from the 52 hexadecimal digits of its character codes. -/
def suf (n : Nat) : Suffix := Vector.ofFn fun k => BitVec.ofNat 8 (n / 256 ^ (25 - k.val))

/-- Ten random bytes from their 20 hexadecimal digits. -/
def rnd (n : Nat) : RandomBytes := Vector.ofFn fun i => BitVec.ofNat 8 (n / 256 ^ (9 - i.val))

/-- The reset state with these registers. -/
def regs (v : Value) (x : Suffix) (w : BitVec 32) : State := { State.reset with val := v, sym := x, stat := w }

/-- The next state, if the step gives one. -/
def nextOf (o : Host.Outcome State Fault Refusal) : Option State :=
  match o with
  | .next t => some t
  | .fault _ => none
  | .refused _ => none

theorem next_of {o : Host.Outcome State Fault Refusal} {t : State} (h : nextOf o = some t) : o = .next t := by
  cases o with
  | next u => simpa [nextOf] using h
  | fault f => simp [nextOf] at h
  | refused r => simp [nextOf] at h

/-- VAL, SYM and STAT_OUT after a step, if it gives a next state. -/
def shown (o : Host.Outcome State Fault Refusal) : Option (Value × Suffix × BitVec 32) :=
  (nextOf o).map fun t => (t.val, t.sym, statOut t)

/-- Twenty-six characters `0`. -/
def zeros : Suffix := suf 0x3030303030303030303030303030303030303030303030303030

/-- The string of V3. -/
def v3s : Suffix := suf 0x3031683566736b66736b3466706571776e73797a35686a353574

/-- The value of V3. -/
def v3v : Value := val 0x01895f99bf3323ecebf2b9f7cb1914ba

/-- The string of X1. -/
def x1s : Suffix := suf 0x387a7a7a7a7a7a7a7a7a7a7a7a7a7a7a7a7a7a7a7a7a7a7a7a7a

/-- The string of X6. -/
def x6s : Suffix := suf 0x3830303030303030303030303030303030303030303030303021

/-- A faulted state, as after F3. -/
def stopped : State := regs (val 0) zeros 0x07000080#32

/-! ## Well-formedness: an ill-formed packet for each check (R60, R64, R65) -/

theorem test_wf_no_opcode : packetWellFormed [] = false := by decide
theorem test_wf_opcode_00 : packetWellFormed [0x00] = false ∧ opcodeAssigned 0x00#8 = false := by decide
theorem test_wf_opcode_07 : packetWellFormed [0x07] = false ∧ opcodeAssigned 0x07#8 = false := by decide
theorem test_wf_opcode_ff : packetWellFormed [0xff] = false ∧ opcodeAssigned 0xff#8 = false := by decide
theorem test_wf_ldv_15 : packetWellFormed (0x01 :: List.replicate 15 0x05) = false := by decide
theorem test_wf_ldv_17 : packetWellFormed (0x01 :: List.replicate 17 0x05) = false := by decide
theorem test_wf_lds_25 : packetWellFormed (0x02 :: List.replicate 25 0x30) = false := by decide
theorem test_wf_lds_27 : packetWellFormed (0x02 :: List.replicate 27 0x30) = false := by decide
theorem test_wf_enc_with_payload : packetWellFormed [0x03, 0x03] = false := by decide
theorem test_wf_accepts : packetWellFormed (0x01 :: List.replicate 16 0xff) = true ∧
    packetWellFormed (0x02 :: List.replicate 26 0xff) = true ∧ packetWellFormed [0x06] = true := by decide

/-! ## Decoding: words written out from the spec's encodings -/

/-- T1. -/
theorem test_decode_ldv : decode [0x01, 0x01, 0x23, 0x45, 0x67, 0x89, 0xab, 0xcd, 0xef, 0xfe,
    0xdc, 0xba, 0x98, 0x76, 0x54, 0x32, 0x10] =
    .command (.ldv (val 0x0123456789abcdeffedcba9876543210)) [] := by decide

/-- T3. -/
theorem test_decode_lds : decode [0x02, 0x30, 0x31, 0x68, 0x35, 0x66, 0x73, 0x6b, 0x66, 0x73, 0x6b, 0x34, 0x66,
    0x70, 0x65, 0x71, 0x77, 0x6e, 0x73, 0x79, 0x7a, 0x35, 0x68, 0x6a, 0x35, 0x35, 0x74] = .command (.lds v3s) [] := by decide

/-- T5: payload bytes equal to opcodes are data. -/
theorem test_decode_opcodes_as_data : decode ([0x01, 0x00, 0xff, 0x07, 0x00, 0x05, 0x06,
    0x00, 0x00, 0x00, 0x00, 0x00, 0x00, 0x00, 0x00, 0x00, 0x00] ++ [0x03]) =
    .command (.ldv (val 0x00ff0700050600000000000000000000)) [0x03] := by decide

/-- R65: the four one-byte packets. -/
theorem test_decode_format_n : decode [0x03] = .command .enc [] ∧ decode [0x04] = .command .dec [] ∧
    decode [0x05] = .command .gen [] ∧ decode [0x06] = .command .chk7 [] := by decide

/-- F7, F8: a packet cut short is no command yet. -/
theorem test_decode_cut_short : decode [0x01, 0, 0, 0, 0, 0] = .incomplete ∧
    decode (0x02 :: List.replicate 25 0x30) = .incomplete := by decide

/-- F6: an illegal opcode takes one byte only. -/
theorem test_decode_illegal : decode [0x07, 0x03, 0x01] = .illegalOpcode 0x07 [0x03, 0x01] := by decide

/-- R61: the long word of T1, byte 0 most significant. -/
theorem test_long_word : longWord [0x01, 0x01, 0x23, 0x45, 0x67, 0x89, 0xab, 0xcd, 0xef, 0xfe,
    0xdc, 0xba, 0x98, 0x76, 0x54, 0x32, 0x10] =
    0x010123456789abcdeffedcba9876543210 := by decide

/-- The same packets numbered as the opcode table numbers them: the first byte is the least significant. -/
theorem test_table_word_ldv : decodeTableWord 136 0x1032547698badcfeefcdab896745230101 =
    some (.ldv (val 0x0123456789abcdeffedcba9876543210)) := by decide
theorem test_table_word_lds :
    decodeTableWord 216 0x7435356a68357a79736e7771657066346b73666b73663568313002 = some (.lds v3s) := by decide
theorem test_table_word_short : decodeTableWord 8 0x02 = some (.lds (suf 0)) := by decide
theorem test_table_word_format_n : decodeTableWord 8 3 = some .enc ∧ decodeTableWord 8 4 = some .dec ∧
    decodeTableWord 8 5 = some .gen ∧ decodeTableWord 8 6 = some .chk7 := by decide
theorem test_table_word_illegal : decodeTableWord 8 0 = none ∧ decodeTableWord 8 7 = none ∧
    decodeTableWord 8 0xff = none := by decide

/-- The placed word is what the first step after reset runs. -/
theorem test_fetch_ldv : shown (step (State.reset.withFetchWord 136 0x1032547698badcfeefcdab896745230101)) =
    some (val 0x0123456789abcdeffedcba9876543210, zeros, 0x00000000#32) := by decide
theorem test_fetch_chk7 : nextOf (step (State.reset.withFetchWord 8 6)) = some State.reset := by decide
theorem test_fetch_illegal : nextOf (step (State.reset.withFetchWord 8 7)) = some stopped := by decide

/-! ## The commands, at most two each -/

/-- P3 read with T1's note: LDV puts STAT back to 0 and leaves SYM. -/
theorem test_ldv_clears_report : shown (exec (.ldv (val 0x0123456789abcdeffedcba9876543210)) (regs (val 0) x1s 0x0038000A#32)) =
    some (val 0x0123456789abcdeffedcba9876543210, x1s, 0x00000000#32) := by decide

/-- T4: LDS checks nothing. -/
theorem test_lds_unchecked : shown (exec (.lds x6s) State.reset) = some (val 0, x6s, 0x00000000#32) := by decide

/-- V4: byte order. -/
theorem test_enc_v4 : shown (exec .enc (regs (val 0x0123456789abcdeffedcba9876543210) zeros 0)) =
    some (val 0x0123456789abcdeffedcba9876543210, suf 0x303134643270663264627371717a787135746b31763538636767, 0x00000000#32) := by
  decide

/-- V20: most of the alphabet. -/
theorem test_enc_v20 : (nextOf (exec .enc (regs (val 0xfadf3bef8022190a63a12a5b1ae7c232) zeros 0))).map State.sym =
    some (suf 0x3774767778797a3031323334353637383961626364656667686a) := by decide

/-- V3, S5: the source's example suffix. -/
theorem test_dec_v3 : shown (exec .dec (regs (val 0) v3s 0)) = some (v3v, v3s, 0x00000000#32) := by decide

/-- X6: both defects; the alphabet check wins, VAL survives. -/
theorem test_dec_x6 : shown (exec .dec (regs (val 0xff) x6s 0)) = some (val 0xff, x6s, 0x00211909#32) := by decide

/-- X1, S6: overflow. -/
theorem test_decode_x1 : codecDecode x1s = .suffixOverflow 0x38#8 := by decide

/-- X8: the lowest index is reported. -/
theorem test_decode_x8 : codecDecode (suf 0x306c30303030303030303030303030303030303030303030306f) =
    .invalidSuffixAlphabet 1 0x6C#8 := by decide

/-- X12: a code above 0x7F is just an invalid character. -/
theorem test_decode_x12 : codecDecode (suf 0x377a7a7a7a7a7a7a7a7a7a7a7a7a7a7a7a7a7a7a7a7a7a7a7afa) =
    .invalidSuffixAlphabet 25 0xFA#8 := by decide

/-- G3: a mixed draw. -/
theorem test_gen_g3 : shown (.next (generated 0x018f3c2a9b7e#48 (rnd 0xa1b2c3d4e5f60718293a) State.reset)) =
    some (val 0x018f3c2a9b7e71b283d4e5f60718293a, zeros, 0x00000000#32) := by decide

/-- G1 and G4: the masks, the timestamp at its largest. -/
theorem test_pack_g1_g4 : pack 0x0123456789ab#48 (rnd 0xffffffffffffffffffff) = val 0x0123456789ab7fffbfffffffffffffff ∧
    pack 0xffffffffffff#48 (rnd 0x00112233445566778899) = val 0xffffffffffff7011a233445566778899 := by decide

/-- R28, R123: the order of the bytes on port RND. -/
theorem test_port_bytes : portBytes 0xa1b2c3d4e5f60718293a#80 = rnd 0xa1b2c3d4e5f60718293a := by decide

/-- K1: version-7 shaped; KIND, POS and INFO are written over. -/
theorem test_chk7_k1 : shown (exec .chk7 (regs (val 0x01890a5dac96774bbcceb302099a8057) x1s 0x0038000A#32)) =
    some (val 0x01890a5dac96774bbcceb302099a8057, x1s, 0x00000010#32) := by decide

/-- K5, K8, K11, K12: the field, its place and its index matter. -/
theorem test_is_v7_refuses : isV7 (val 0x00000000000070004000000000000000) = false ∧
    isV7 (val 0x00000000000060008000000000000000) = false ∧ isV7 (val 0x000000000000700000000000000000c0) = false ∧
    isV7 (val 0x00000000000007008000000000000000) = false := by decide

/-! ## Fault, waiting, reset -/

/-- F4: the report survives the fault entry. -/
theorem test_fault_f4 : shown (step (hostSend [0x07] (regs (val 0) x1s 0x0038000A#32))) =
    some (val 0, x1s, 0x0738008A#32) := by decide

/-- F5. -/
theorem test_fault_f5 : shown (step (hostSend [0x80] (regs (val 0) zeros 0x00000010#32))) =
    some (val 0, zeros, 0x80000090#32) := by decide

/-- F6: the bytes after the fault are never consumed. -/
theorem test_fault_f6 : step (hostSend [0x03, 0x01] stopped) = .fault (.illegalCommand 0x07#8) := rfl

/-- F7: waiting, and nothing has changed. -/
theorem test_waiting_f7 : nextOf (step (hostSend [0x01, 0, 0, 0, 0, 0] State.reset)) =
    some { State.reset with received := [0x01, 0, 0, 0, 0, 0] } := by decide

/-- F9: the empty program. -/
theorem test_completed_f9 : nextOf (step State.reset) = some State.reset ∧ runOutcome State.reset = some .completed := by
  decide

/-- R210: reset leaves the fault. -/
theorem test_reset_leaves_fault : nextOf (step (hostAssertReset [0x03] stopped)) = some State.reset := by decide

/-! ## Notation and the host layer -/

/-- R68: either case of digit is read; 31 digits are an assembly error. -/
theorem test_assemble_ldv : assembleLine (.ldvHex ("0aF".toList ++ List.replicate 29 '0')) =
    some (0x01 :: 0x0a :: 0xf0 :: List.replicate 14 0x00) ∧
    assembleLine (.ldvHex (List.replicate 31 '0')) = none := by decide

/-- R68: the text form and `.byte`. -/
theorem test_assemble_lds : assembleLine (.ldsText ('8' :: List.replicate 25 'z')) = some (0x02 :: x1s.toList) ∧
    assembleLine (.rawByte 0x07) = some [0x07] := by decide

/-- The codes of the prefix "user" (S5). -/
def user : List Byte := [0x75, 0x73, 0x65, 0x72]

/-- S5: the source's example. -/
theorem test_parse_s5 : parse (.text (user ++ 0x5f :: v3s.toList)) =
    .ok { typePrefix := user, suffix := v3s, value := v3v, typeid := user ++ 0x5f :: v3s.toList } := by rfl

/-- S6, S7, S8. -/
theorem test_explain_s6_s7_s8 :
    (explain (.text (user ++ 0x5f :: x1s.toList))).map HostFailure.kind = some .suffixOverflow ∧
    (explain (.text (0x55 :: 0x73 :: 0x65 :: 0x72 :: 0x5f :: v3s.toList))).map HostFailure.kind = some .invalidCase ∧
    (explain (.text (0x5f :: user ++ 0x5f :: v3s.toList))).map HostFailure.kind = some .leadingUnderscore := by decide

/-- R143: a symbolic tag is normalised at the boundary, and the validator itself refuses it; a format failure carries a
pattern. -/
theorem test_create_symbolic : create (some (.symbol user)) (some v3v) 0#48 (rnd 0) =
    .ok (user ++ 0x5f :: v3s.toList) := by rfl
theorem test_validator_refuses_symbol :
    validatePrefix (.symbol user) = .error (failWith .invalidPrefixType (.symbol user)) := rfl

/-! ## Witnesses: the hypotheses of the obligations can be met -/
/-- StepKeepsTheInvariant: from reset, into a waiting state, into a faulted one, out of it. -/
theorem witness_step_keeps_the_invariant_idle : Inv State.reset ∧ step State.reset = .next State.reset :=
  ⟨by decide, next_of (by decide)⟩
theorem witness_step_keeps_the_invariant_waiting : Inv (hostSend [0x01] State.reset) ∧
    step (hostSend [0x01] State.reset) = .next { State.reset with received := [0x01] } :=
  ⟨by decide, next_of (by decide)⟩
theorem witness_step_keeps_the_invariant_fault : Inv (hostSend [0x07] State.reset) ∧
    step (hostSend [0x07] State.reset) = .next stopped ∧ Inv stopped :=
  ⟨by decide, next_of (by decide), by decide⟩
theorem witness_step_keeps_the_invariant_reset : Inv (hostAssertReset [] stopped) ∧
    step (hostAssertReset [] stopped) = .next State.reset :=
  ⟨by decide, next_of (by decide)⟩
theorem witness_step_keeps_the_invariant_report : Inv (hostSend [0x04] (regs (val 0) x6s 0)) ∧
    step (hostSend [0x04] (regs (val 0) x6s 0)) = .next (regs (val 0) x6s 0x00211909#32) :=
  ⟨by decide, next_of (by decide)⟩

/-- ResetEndsEveryState: idle, waiting, faulted with an unread byte. -/
theorem witness_reset_from_idle : State.reset.received = [] ∧
    (hostAssertReset [] State.reset).input = ([] : List Byte).map HostInput.byte ++ .rst [] :: [] ∧
    decode ((hostAssertReset [] State.reset).received ++ []) = .incomplete := by decide
theorem witness_reset_from_waiting :
    (hostAssertReset [0x03] (hostSend [0x00] { State.reset with received := [0x01] })).input =
      [0x00#8].map HostInput.byte ++ .rst [0x03] :: [] ∧
    decode ((hostAssertReset [0x03] (hostSend [0x00] { State.reset with received := [0x01] })).received ++ [0x00]) =
      .incomplete := by decide
theorem witness_reset_from_faulted : faulted (hostAssertReset [] (hostSend [0x03] stopped)) = true ∧
    (hostAssertReset [] (hostSend [0x03] stopped)).input = [0x03#8].map HostInput.byte ++ .rst [] :: [] := by decide

/-- DecodeOfEncodeReturnsTheCommand. -/
theorem witness_well_formed : (Instr.ldv (val 0)).wellFormed = true ∧ (Instr.lds zeros).wellFormed = true ∧
    Instr.enc.wellFormed = true ∧ Instr.dec.wellFormed = true ∧ Instr.gen.wellFormed = true ∧
    Instr.chk7.wellFormed = true := by decide

/-- DecodedBytesAreTheEncoding. -/
theorem witness_decoded : decode (0x02 :: zeros.toList ++ [0x04]) = .command (.lds zeros) [0x04] ∧
    decode [0x04] = .command .dec [] := by decide

/-- OpcodeByteAloneTellsTheLength: the illegal opcodes at their ends, and a legal one short of a byte and whole. -/
theorem witness_illegal_opcodes : (0x00#8 : Byte).toNat = 0 ∧ 7 ≤ (0x07#8 : Byte).toNat ∧ 7 ≤ (0xFF#8 : Byte).toNat := by
  decide
theorem witness_lengths : packetLength 0x01#8 = some 17 ∧ (List.replicate 15 0x00#8).length + 1 < 17 ∧
    ¬ (List.replicate 16 0x00#8).length + 1 < 17 ∧ packetLength 0x06#8 = some 1 ∧ ¬ ([] : List Byte).length + 1 < 1 := by
  decide

/-- StepRunsTheDecodedInstruction: a whole packet offered, and the rest of one that was begun. -/
theorem witness_step_runs : Running (hostSend [0x04] State.reset) ∧
    (hostSend [0x04] State.reset).received ++ [0x04] = encode .dec ∧
    (hostSend [0x04] State.reset).input = [0x04#8].map HostInput.byte ++ [] := by decide
theorem witness_step_runs_late : Running { State.reset with received := [0x02] } ∧
    { State.reset with received := [0x02] }.received ++ zeros.toList = encode (.lds zeros) := by decide

/-- UnfinishedPacketWaits: nothing received yet, and one byte short of a string. -/
theorem witness_unfinished : Running (hostSend [0x01] State.reset) ∧ (hostSend [0x01] State.reset).received ++ [0x01] ≠ [] ∧
    (hostSend [0x01] State.reset).input = [0x01#8].map HostInput.byte ∧
    decode ((hostSend [0x01] State.reset).received ++ [0x01]) = .incomplete := by decide
theorem witness_unfinished_again :
    Running { State.reset with received := 0x02 :: List.replicate 25 0x30 } ∧
    { State.reset with received := 0x02 :: List.replicate 25 0x30 }.received ++ [] ≠ [] ∧
    { State.reset with received := 0x02 :: List.replicate 25 0x30 }.input = ([] : List Byte).map HostInput.byte ∧
    decode ({ State.reset with received := 0x02 :: List.replicate 25 0x30 }.received ++ []) = .incomplete := by decide

/-- LateBytesCompleteThePacket: cut after the opcode byte, and before the last byte. -/
theorem witness_late_bytes : Running (hostSend [0x02] State.reset) ∧ (hostSend [0x02] State.reset).received = [] ∧
    (hostSend [0x02] State.reset).input = [0x02#8].map HostInput.byte ∧
    encode (.lds zeros) = [0x02] ++ zeros.toList ∧ zeros.toList ≠ [] := by decide
theorem witness_last_byte_late : encode (.lds zeros) = (0x02 :: List.replicate 25 0x30) ++ [0x30] := by decide

/-- IdleBlockStaysAsItIs, WholePacketsRunInOrder: idle with nothing offered, as after reset and after a failed DEC. -/
theorem witness_idle : Running State.reset ∧ State.reset.received = [] ∧ State.reset.input = [] := by decide
theorem witness_idle_with_report : Running (regs (val 0) x1s 0x0038000A#32) ∧
    (regs (val 0) x1s 0x0038000A#32).received = [] ∧ (regs (val 0) x1s 0x0038000A#32).input = [] := by decide

/-- IllegalByteEndsTheRunFaulted, beside witness_idle. -/
theorem witness_unassigned : opcodeAssigned 0x00#8 = false ∧ opcodeAssigned 0x07#8 = false ∧
    opcodeAssigned 0xFF#8 = false := by decide

/-- IllegalOpcodeEntersTheFault: 0x00, 0x07 with bytes after it, 0xFF. -/
theorem witness_illegal_00 : Running (hostSend [0x00] State.reset) ∧ (hostSend [0x00] State.reset).received = [] ∧
    (0x00#8 : Byte).toNat = 0 ∧ (hostSend [0x00] State.reset).input = .byte 0x00 :: [] := by decide
theorem witness_illegal_07 : Running (hostSend [0x07, 0x03] State.reset) ∧
    (hostSend [0x07, 0x03] State.reset).received = [] ∧ 7 ≤ (0x07#8 : Byte).toNat ∧
    (hostSend [0x07, 0x03] State.reset).input = .byte 0x07 :: [0x03#8].map HostInput.byte := by decide
theorem witness_illegal_ff : Running (hostSend [0xFF] State.reset) ∧ (hostSend [0xFF] State.reset).received = [] ∧
    7 ≤ (0xFF#8 : Byte).toNat ∧ (hostSend [0xFF] State.reset).input = .byte 0xFF :: [] := by decide

/-- FaultedBlockExecutesNothing: with and without unread bytes. -/
theorem witness_faulted : faulted stopped = true ∧ stopped.input = ([] : List Byte).map HostInput.byte := by decide
theorem witness_faulted_unread : faulted (hostSend [0x03] stopped) = true ∧
    (hostSend [0x03] stopped).input = [0x03#8].map HostInput.byte := by decide

/-- OnlyAnIllegalOpcodeFaults: a running state whose step is a faulted one. -/
theorem witness_only_illegal : Running (hostSend [0x80] State.reset) ∧
    (nextOf (step (hostSend [0x80] State.reset))).map faulted = some true := by decide

/-- OnlyResetLeavesTheFault. -/
theorem witness_leaves_fault : faulted (hostAssertReset [0x03] stopped) = true ∧
    step (hostAssertReset [0x03] stopped) = .next State.reset := ⟨by decide, next_of (by decide)⟩

/-- The completion statements of LDV, LDS, ENC, GEN, CHK7 and those over all commands ask for a running state only. -/
theorem witness_running : Running State.reset ∧ Running (regs (val 0) x1s 0x0038000A#32) ∧
    Running { State.reset with stat := 0xFFFFFF7F#32 } := by decide

/-- ReassembledBytesAreTheBitsOfTheGroups: the first group at both ends of its range. -/
theorem witness_first_group : (groupsOf zeros)[0].toNat ≤ 7 ∧
    (groupsOf (codecEncode (val 0xffffffffffffffffffffffffffffffff)))[0].toNat = 7 := by decide

/-- SymbolMapperInClosedForm: a valid character at both ends of the alphabet. -/
theorem witness_symbols : val5 0x30#8 = some 0#5 ∧ val5 0x7A#8 = some 31#5 ∧ val5 0x39#8 = some 9#5 ∧
    val5 0x61#8 = some 10#5 ∧ val5 0x69#8 = none ∧ val5 0x6C#8 = none ∧ val5 0x6F#8 = none ∧ val5 0x75#8 = none := by
  decide

/-- DecDecodesALegalSuffix: `0` and `7` first. -/
theorem witness_dec_success : Running (regs (val 0) zeros 0) ∧ LegalSuffix (regs (val 0) zeros 0).sym := by decide
theorem witness_dec_success_largest : LegalSuffix (suf 0x377a7a7a7a7a7a7a7a7a7a7a7a7a7a7a7a7a7a7a7a7a7a7a7a7a) := by decide

/-- DecReportsTheLowestInvalidCharacter: at index 0 (X7), at index 25 behind an overflowing first symbol (X6). -/
theorem witness_invalid_first :
    isSymbol (suf 0x4f30303030303030303030303030303030303030303030303030)[(0 : Fin 26)] = false ∧
    ∀ j : Fin 26, j < 0 →
      isSymbol (suf 0x4f30303030303030303030303030303030303030303030303030)[j] = true := by decide
theorem witness_invalid_last : Running (regs (val 0) x6s 0) ∧ isSymbol (regs (val 0) x6s 0).sym[(25 : Fin 26)] = false ∧
    ∀ j : Fin 26, j < 25 → isSymbol (regs (val 0) x6s 0).sym[j] = true := by decide

/-- DecReportsAnOverflow: first symbols `7`, `8` and `z`. -/
theorem witness_overflow : Running (regs (val 0) x1s 0) ∧ (∀ k : Fin 26, isSymbol (regs (val 0) x1s 0).sym[k] = true) ∧
    val5 (regs (val 0) x1s 0).sym[0] = some 8#5 := by decide
theorem witness_no_overflow :
    (∀ k : Fin 26, isSymbol (suf 0x377a7a7a7a7a7a7a7a7a7a7a7a7a7a7a7a7a7a7a7a7a7a7a7a7a)[k] = true) ∧
    val5 (suf 0x377a7a7a7a7a7a7a7a7a7a7a7a7a7a7a7a7a7a7a7a7a7a7a7a7a)[0] = some 7#5 := by decide
theorem witness_overflow_largest :
    (∀ k : Fin 26, isSymbol (suf 0x7a30303030303030303030303030303030303030303030303030)[k] = true) ∧
    val5 (suf 0x7a30303030303030303030303030303030303030303030303030)[0] = some 31#5 := by decide

/-- TimestampOrderIsValueOrder, EncodingKeepsTheOrder: neighbours, and the ends. -/
theorem witness_timestamps : (0x0123456789ab#48 : BitVec 48) < 0x0123456789ac#48 ∧
    (0x000000000000#48 : BitVec 48) < 0xffffffffffff#48 := by decide
theorem witness_value_order : v128 (val 0x20) < v128 (val 0x21) ∧
    v128 (val 0) < v128 (val 0xffffffffffffffffffffffffffffffff) := by decide

/-- RoundTripStringFirst, PseudoInstructionsRenderTheFunctions: a legal suffix and two that are not. -/
theorem witness_legal_and_not : LegalSuffix v3s ∧ ¬ LegalSuffix x1s ∧ ¬ LegalSuffix x6s := by decide

/-- EncodingIsABijection. -/
theorem witness_same_encoding : codecEncode v3v = codecEncode v3v ∧ codecEncode v3v = v3s := by decide

/-- EveryCompletedCommandReports: a report other than 0, and a set P. -/
theorem witness_reports : Running (regs (val 0) x1s 0) ∧
    (nextOf (exec .dec (regs (val 0) x1s 0))).map (fun t => statKind t.stat) = some 10#4 ∧
    Running (regs (val 0x70008000000000000000) zeros 0) ∧
    (nextOf (exec .chk7 (regs (val 0x70008000000000000000) zeros 0))).map (fun t => statP t.stat) = some true := by decide

/-- OnlyTheNamedCommandsWriteARegister: one command of each clause. -/
theorem witness_exec_enc : exec .enc (regs v3v zeros 0) = .next (regs v3v v3s 0) := next_of (by decide)
theorem witness_exec_lds : exec (.lds v3s) (regs v3v zeros 0) = .next (regs v3v v3s 0) := next_of (by decide)
theorem witness_exec_ldv : exec (.ldv v3v) (regs (val 0) zeros 0) = .next (regs v3v zeros 0) := next_of (by decide)
theorem witness_exec_dec : exec .dec (regs (val 0) v3s 0) = .next (regs v3v v3s 0) := next_of (by decide)
theorem witness_exec_chk7 : exec .chk7 (regs v3v zeros 0x00000010#32) = .next (regs v3v zeros 0) := next_of (by decide)
theorem witness_exec_gen : exec .gen State.reset =
    .next (advanceDraws (generated (clockAnswer State.reset) (randomAnswer State.reset) State.reset)) := rfl

/-- TaggedResultChangesStatOnly: both tagged results. -/
theorem witness_tagged_overflow : exec .dec (regs v3v x1s 0) = .next (regs v3v x1s 0x0038000A#32) ∧
    statKind (0x0038000A#32) ≠ 0#4 := ⟨next_of (by decide), by decide⟩
theorem witness_tagged_alphabet : exec .dec (regs v3v x6s 0) = .next (regs v3v x6s 0x00211909#32) ∧
    statKind (0x00211909#32) ≠ 0#4 := ⟨next_of (by decide), by decide⟩

/-- CommandsOtherThanGenAreIdempotent, beside the witness_exec theorems. -/
theorem witness_not_gen : Instr.enc ≠ .gen ∧ Instr.dec ≠ .gen ∧ Instr.chk7 ≠ .gen ∧ Instr.ldv v3v ≠ .gen ∧
    Instr.lds v3s ≠ .gen := by decide

/-- ResultsDependOnDataRegistersAndDrawsOnly: two states that differ in STAT, in the stream and, but for GEN, in the draws. -/
theorem witness_same_data : (regs v3v v3s 0).val = { regs v3v v3s 0x0038000A#32 with draws := 5 }.val ∧
    (regs v3v v3s 0).sym = { regs v3v v3s 0x0038000A#32 with draws := 5 }.sym ∧
    (Instr.dec = .gen → (regs v3v v3s 0).draws = { regs v3v v3s 0x0038000A#32 with draws := 5 }.draws) ∧
    exec .dec (regs v3v v3s 0) = .next (regs v3v v3s 0) ∧
    exec .dec { regs v3v v3s 0x0038000A#32 with draws := 5 } = .next { regs v3v v3s 0 with draws := 5 } :=
  ⟨rfl, rfl, by decide, next_of (by decide), next_of (by decide)⟩
theorem witness_same_data_gen : (∃ t, exec .gen (regs v3v v3s 0) = .next t) ∧
    (∃ t, exec .gen (regs v3v v3s 0x0038000A#32) = .next t) ∧
    (regs v3v v3s 0).draws = (regs v3v v3s 0x0038000A#32).draws := ⟨⟨_, rfl⟩, ⟨_, rfl⟩, rfl⟩

/-- PairingIsMadeAndKept: DEC with and without success, on a running block. -/
theorem witness_pairing : Running (regs (val 0) v3s 0) ∧ Running (regs v3v x1s 0) ∧ Paired (regs v3v v3s 0) ∧
    ¬ Paired (regs v3v x1s 0) := by decide

/-- OutputPortsShowTheRegisters: a STAT word whose hard-wired bits are 0. -/
theorem witness_reserved : statReserved (regs v3v v3s 0xFFFF1F9F#32).stat = 0#5 := by decide

/-- AssemblyLinesGivePackets: wrong lengths by one, and a line of each outcome. -/
theorem witness_wrong_lengths : (List.replicate 25 0x30#8).length ≠ 26 ∧ (List.replicate 27 '0').length ≠ 26 ∧
    (List.replicate 31 '0').length ≠ 32 ∧ (List.replicate 33 '0').length ≠ 32 := by decide
theorem witness_lines : assembleLine (.ldvHex ('0' :: 'a' :: 'F' :: List.replicate 29 '9')) =
      some (0x01 :: 0x0a :: 0xf9 :: List.replicate 14 0x99) ∧
    assembleLine (.ldsText ('!' :: List.replicate 25 'z')) = some (0x02 :: 0x21 :: List.replicate 25 0x7a) ∧
    assembleLine (.ldsBytes (0xff :: List.replicate 25 0x00)) = some (0x02 :: 0xff :: List.replicate 25 0x00) := by
  decide
theorem witness_hex_digits : hexDigit '0' = some 0#4 ∧ hexDigit '9' = some 9#4 ∧ hexDigit 'a' = some 10#4 ∧
    hexDigit 'f' = some 15#4 ∧ hexDigit 'A' = some 10#4 ∧ hexDigit 'F' = some 15#4 ∧ hexDigit 'g' = none ∧
    hexDigit ':' = none := by decide

/-- SplitUndoesAssemble. -/
theorem witness_no_underscore : underscore ∉ v3s.toList ∧ underscore ∉ ([] : List Byte) := by decide

/-- ParseUndoesAssemble: no prefix, "user", and one of 63 letters. -/
theorem witness_prefix : validatePrefix (.text []) = .ok [] ∧ validatePrefix (.text user) = .ok user ∧
    validatePrefix (.text (List.replicate 63 0x61)) = .ok (List.replicate 63 0x61) := ⟨rfl, rfl, rfl⟩

/-- ParseChecksInTheStatedOrder: the lengths at their ends, then one string for each failure. -/
theorem witness_lengths_outside : (List.replicate 25 0x30#8).length < 26 ∧ 90 < (List.replicate 91 0x30#8).length := by
  decide
theorem witness_upper_case : 26 ≤ (List.replicate 26 0x41#8).length ∧ (List.replicate 90 0x5A#8).length ≤ 90 ∧
    (List.replicate 26 0x41#8).any isUpperLetter = true ∧ (List.replicate 90 0x5A#8).any isUpperLetter = true := by decide
theorem witness_leading_underscore : 26 ≤ (0x5F#8 :: v3s.toList).length ∧ (0x5F#8 :: v3s.toList).length ≤ 90 ∧
    (0x5F#8 :: v3s.toList).any isUpperLetter = false ∧ (0x5F#8 :: v3s.toList).head? = some underscore := by decide

/-- ParseAcceptsExactlyTheGrammar: in and out of the grammar. -/
theorem witness_grammar : typeIdGrammar v3s.toList = true ∧ typeIdGrammar (user ++ 0x5F :: v3s.toList) = true ∧
    typeIdGrammar x1s.toList = false := by decide

/-- PrefixValidatorChecksInTheStatedOrder: 64 characters and 63; no prefix, one letter, a trailing underscore, an interior
one; the three failures. -/
theorem witness_prefix_too_long : 63 < (List.replicate 64 0x61#8).length ∧ (List.replicate 63 0x61#8).length ≤ 63 := by
  decide
theorem witness_prefix_forms : validatePrefix (.text [0x61]) = .ok [0x61] ∧
    validatePrefix (.text [0x61, 0x5F, 0x5F, 0x7A]) = .ok [0x61, 0x5F, 0x5F, 0x7A] ∧
    validatePrefix (.text [0x61, 0x5F]) = .error { failWith .invalidPrefixFormat (.text [0x61, 0x5F]) with
      pattern := some (Config.violatedPattern [0x61, 0x5F]) } := ⟨rfl, rfl, rfl⟩
theorem witness_prefix_failures : validatePrefix .notText = .error (failWith .invalidPrefixType .notText) ∧
    validatePrefix (.text (List.replicate 64 0x61)) =
      .error (failWith .prefixTooLong (.text (List.replicate 64 0x61))) := ⟨rfl, rfl⟩

end Sys2Proof.Tests
end

section
/-! SUPPORT. Proofs of the state family: the fields of STAT as one word, what a string decodes to, what every command
reports and leaves unchanged, and the invariant that every step keeps (spec 10_state.md, 60_exceptions.md R186). -/

namespace Sys2Proof.Machine

/-! ### STAT as one word -/

/-- Concatenation puts the left word above the bits of the right one. -/
theorem toNat_append_eq_add {m n : Nat} (x : BitVec m) (y : BitVec n) :
    (x ++ y).toNat = x.toNat * 2 ^ n + y.toNat := by
  rw [BitVec.toNat_append, ← Nat.shiftLeft_add_eq_or_of_lt y.isLt, Nat.shiftLeft_eq]

/-- The layout of R23 as a number. -/
theorem toNat_statWord (fop info : Byte) (pos : BitVec 5) (flt p : Bool) (kind : BitVec 4) :
    (statWord fop info pos flt p kind).toNat =
      fop.toNat * 2 ^ 24 + info.toNat * 2 ^ 16 + pos.toNat * 2 ^ 8 + flt.toNat * 2 ^ 7 + p.toNat * 2 ^ 4 +
        kind.toNat := by
  simp only [statWord, toNat_append_eq_add, BitVec.toNat_ofBool, BitVec.toNat_ofNat]
  omega

/-- The reserved fields are 0 exactly where bits 15:13 and bits 6:5 are (R23). -/
theorem statReserved_eq_zero_iff (w : BitVec 32) :
    statReserved w = 0#5 ↔ w.extractLsb' 13 3 = 0#3 ∧ w.extractLsb' 5 2 = 0#2 := by
  constructor
  · intro h
    exact ⟨BitVec.extractLsb'_append_eq_left.symm.trans (congrArg (BitVec.extractLsb' 2 3) h),
      BitVec.extractLsb'_append_eq_right.symm.trans (congrArg (BitVec.extractLsb' 0 2) h)⟩
  · rintro ⟨hhigh, hlow⟩
    simp [statReserved, hhigh, hlow]

/-- A word whose reserved fields are 0 reads as it is (R23, R29). -/
theorem statRead_eq_self {w : BitVec 32} (h : statReserved w = 0#5) : statRead w = w := by
  obtain ⟨hhigh, hlow⟩ := (statReserved_eq_zero_iff w).1 h
  have hw := w.isLt
  have hbit : ∀ n, (w.getLsbD n).toNat = w.toNat / 2 ^ n % 2 := fun n => Nat.toNat_testBit _ _
  simp only [← BitVec.toNat_inj, BitVec.extractLsb'_toNat, Nat.shiftRight_eq_div_pow, BitVec.toNat_ofNat]
    at hhigh hlow
  apply BitVec.eq_of_toNat_eq
  simp only [statRead, toNat_statWord, statFop, statInfo, statPos, statFlt, statP, statKind, hbit,
    BitVec.extractLsb'_toNat, Nat.shiftRight_eq_div_pow]
  omega

/-! ### Legal strings and what they decode to -/

/-- The codes of the symbols: none below `0`, and up to `7` exactly the first eight (R90, R98). -/
theorem toNat_sym5_bounds : ∀ g : BitVec 5,
    0x30 ≤ (sym5 g).toNat ∧ ((sym5 g).toNat ≤ 0x37 ↔ g.toNat ≤ 7) := by decide

/-- A symbol is the symbol of its group. -/
theorem sym5_groupsOf {s : Suffix} {k : Nat} {hk : k < 26} (h : isSymbol s[k] = true) :
    sym5 (groupsOf s)[k] = s[k] := by
  obtain ⟨g, hg⟩ := Option.isSome_iff_exists.1 h
  exact sym5_of_val5 _ _ (by simp [groupsOf, hg])

/-- A first symbol overflows exactly where its code is above that of `7` (R98). -/
theorem firstGroup_le_seven_iff {s : Suffix} (h : isSymbol s[0] = true) :
    (groupsOf s)[0].toNat ≤ 7 ↔ s[0].toNat ≤ 0x37 := by
  rw [← (toNat_sym5_bounds _).2, sym5_groupsOf h]

/-- The lowest index of no symbol holds no symbol (R97). -/
theorem isSymbol_of_firstInvalid {s : Suffix} {k : Fin 26} (h : firstInvalid s = some k) :
    isSymbol s[k] = false := by
  simpa using List.find?_some h

/-- A string without an invalid character begins with a symbol. -/
theorem isSymbol_first {s : Suffix} (h : firstInvalid s = none) : isSymbol s[0] = true := by
  simpa using (firstInvalid_eq_none_iff s).1 h 0

/-- A string without an invalid character and with a small first group is a legal suffix (R98). -/
theorem legalSuffix_of_firstInvalid_none {s : Suffix} (h : firstInvalid s = none)
    (h7 : (groupsOf s)[0].toNat ≤ 7) : LegalSuffix s := by
  have hall := (firstInvalid_eq_none_iff s).1 h
  have h0 := isSymbol_first h
  refine ⟨hall, ?_, (firstGroup_le_seven_iff h0).1 h7⟩
  rw [← sym5_groupsOf h0]
  exact (toNat_sym5_bounds _).1

/-- Only a legal suffix decodes to a value (R96, R98). -/
theorem legalSuffix_of_codecDecode {s : Suffix} {a : Value} (h : codecDecode s = .value a) : LegalSuffix s := by
  obtain ⟨k, -, hd⟩ | ⟨-, -, hd⟩ | ⟨hnone, h7, -⟩ := codecDecode_cases s
  · simp [hd] at h
  · simp [hd] at h
  · exact legalSuffix_of_firstInvalid_none hnone h7

/-- The groups of an encoding are those of the value (R94, R95). -/
theorem groupsOf_codecEncode (a : Value) :
    groupsOf (codecEncode a) = Vector.ofFn fun k => group (widened a) k.val := by
  ext k hk
  simp [groupsOf, codecEncode]

/-- Every character of an encoding is a symbol (R104). -/
theorem firstInvalid_codecEncode (a : Value) : firstInvalid (codecEncode a) = none :=
  (firstInvalid_eq_none_iff _).2 fun k => by simp [codecEncode, isSymbol]

/-- Group 0 holds the two implicit zero bits (R93, R94). -/
theorem group_widened_zero_le (a : Value) : (group (widened a) 0).toNat ≤ 7 := by
  have hlt := (v128 a).isLt
  simp only [group, widened, BitVec.extractLsb'_toNat, BitVec.toNat_setWidth, Nat.shiftRight_eq_div_pow]
  omega

/-- The two implicit bits are the ones that reassembly drops (R93, R99). -/
theorem extractLsb'_widened (a : Value) : (widened a).extractLsb' 0 128 = v128 a := by
  rw [widened, BitVec.extractLsb'_setWidth_of_le (by omega), BitVec.extractLsb'_eq_self]

/-- Decoding undoes encoding (R100). -/
@[simp] theorem codecDecode_codecEncode (a : Value) : codecDecode (codecEncode a) = .value a := by
  obtain ⟨k, h, -⟩ | ⟨-, h, -⟩ | ⟨-, -, h⟩ := codecDecode_cases (codecEncode a)
  · simp [firstInvalid_codecEncode] at h
  · have h7 := group_widened_zero_le a
    simp only [groupsOf_codecEncode, Vector.getElem_ofFn] at h
    omega
  · rw [h, groupsOf_codecEncode, valueOfGroups, reassembled_groups, extractLsb'_widened, bytes16_v128]

/-- A state whose SYM decodes to its VAL is paired: the string is then legal (R32). -/
theorem paired_of_codecDecode {s : State} (h : codecDecode s.sym = .value s.val) : Paired s :=
  ⟨legalSuffix_of_codecDecode h, h⟩

/-- Pairing speaks of VAL and SYM only (R32). -/
theorem paired_congr {s t : State} (hval : t.val = s.val) (hsym : t.sym = s.sym) : Paired t ↔ Paired s := by
  simp only [Paired, hval, hsym]

/-! ### What a command reports -/

/-- The report of a completed command: KIND, P, POS and INFO (R33). -/
structure Report where
  kind : BitVec 4
  p : Bool
  pos : BitVec 5
  info : Byte

/-- The report DEC makes of what `decode(SYM)` returned (R96). -/
def Decoding.report : Decoding → Report
  | .value _ => ⟨0#4, false, 0#5, 0#8⟩
  | .invalidSuffixAlphabet k c => ⟨9#4, false, BitVec.ofNat 5 k.val, c⟩
  | .suffixOverflow c => ⟨10#4, false, 0#5, c⟩

/-- VAL after DEC: the decoded value, or the old one (R96, R188). -/
def Decoding.valueOr (old : Value) : Decoding → Value
  | .value a => a
  | .invalidSuffixAlphabet _ _ => old
  | .suffixOverflow _ => old

/-- What a command reports, from VAL and SYM alone. -/
def reportOf (i : Instr) (a : Value) (x : Suffix) : Report :=
  match i with
  | .dec => (codecDecode x).report
  | .chk7 => ⟨0#4, isV7 a, 0#5, 0#8⟩
  | .ldv _ | .lds _ | .enc | .gen => ⟨0#4, false, 0#5, 0#8⟩

@[simp] theorem generated_sym (ts : BitVec 48) (r : RandomBytes) (s : State) : (generated ts r s).sym = s.sym := rfl
@[simp] theorem generated_val (ts : BitVec 48) (r : RandomBytes) (s : State) : (generated ts r s).val = pack ts r := rfl
@[simp] theorem generated_stat (ts : BitVec 48) (r : RandomBytes) (s : State) :
    (generated ts r s).stat = statCompleted s.stat 0#4 false 0#5 0#8 := rfl
@[simp] theorem generated_received (ts : BitVec 48) (r : RandomBytes) (s : State) :
    (generated ts r s).received = s.received := rfl
@[simp] theorem generated_input (ts : BitVec 48) (r : RandomBytes) (s : State) :
    (generated ts r s).input = s.input := rfl

@[simp] theorem applyDecoding_val (d : Decoding) (s : State) : (applyDecoding d s).val = d.valueOr s.val := by
  cases d <;> rfl
@[simp] theorem applyDecoding_sym (d : Decoding) (s : State) : (applyDecoding d s).sym = s.sym := by cases d <;> rfl
@[simp] theorem applyDecoding_received (d : Decoding) (s : State) : (applyDecoding d s).received = s.received := by
  cases d <;> rfl
@[simp] theorem applyDecoding_input (d : Decoding) (s : State) : (applyDecoding d s).input = s.input := by
  cases d <;> rfl
@[simp] theorem applyDecoding_draws (d : Decoding) (s : State) : (applyDecoding d s).draws = s.draws := by
  cases d <;> rfl
theorem applyDecoding_stat (d : Decoding) (s : State) :
    (applyDecoding d s).stat = statCompleted s.stat d.report.kind d.report.p d.report.pos d.report.info := by
  cases d <;> rfl

/-- Every command completes with its report, and writes nothing else into STAT (R33). -/
theorem effect_stat (i : Instr) (s : State) :
    (effect i s).stat = statCompleted s.stat (reportOf i s.val s.sym).kind (reportOf i s.val s.sym).p
      (reportOf i s.val s.sym).pos (reportOf i s.val s.sym).info := by
  cases i with
  | dec => exact applyDecoding_stat _ s
  | ldv _ | lds _ | enc | gen | chk7 => simp [effect, reportOf, kindCode]

/-- A kind other than 0 comes from DEC only (R182). -/
theorem eq_dec_of_reportOf_kind {i : Instr} {a : Value} {x : Suffix} (h : (reportOf i a x).kind ≠ 0#4) :
    i = .dec := by
  cases i with
  | dec => rfl
  | ldv _ | lds _ | enc | gen | chk7 => exact absurd rfl h

/-- P is set by CHK7 only (R24). -/
theorem eq_chk7_of_reportOf_p {i : Instr} {a : Value} {x : Suffix} (h : (reportOf i a x).p = true) : i = .chk7 := by
  cases i with
  | chk7 => rfl
  | dec => cases hd : codecDecode x <;> simp [reportOf, hd, Decoding.report] at h
  | ldv _ | lds _ | enc | gen => cases h

/-- Everything a command can report (R24, R96): success, the lowest character that is no symbol, or an overflowing
first symbol. -/
theorem reportOf_cases (i : Instr) (a : Value) (x : Suffix) :
    (∃ p, reportOf i a x = ⟨0#4, p, 0#5, 0#8⟩) ∨
    (∃ k : Fin 26, isSymbol x[k] = false ∧ reportOf i a x = ⟨9#4, false, BitVec.ofNat 5 k.val, x[k]⟩) ∨
    (isSymbol x[0] = true ∧ 0x37 < x[0].toNat ∧ reportOf i a x = ⟨10#4, false, 0#5, x[0]⟩) := by
  cases i with
  | ldv _ | lds _ | enc | gen => exact .inl ⟨false, rfl⟩
  | chk7 => exact .inl ⟨isV7 a, rfl⟩
  | dec =>
    obtain ⟨k, hk, hd⟩ | ⟨hnone, h7, hd⟩ | ⟨-, -, hd⟩ := codecDecode_cases x
    · exact .inr (.inl ⟨k, isSymbol_of_firstInvalid hk, by simp [reportOf, hd, Decoding.report]⟩)
    · have h0 := isSymbol_first hnone
      have hover := (firstGroup_le_seven_iff h0).not
      exact .inr (.inr ⟨h0, by omega, by simp [reportOf, hd, Decoding.report]⟩)
    · exact .inl ⟨false, by simp [reportOf, hd, Decoding.report]⟩

section effect
variable (i : Instr) (s : State)

@[simp] theorem statKind_effect : statKind (effect i s).stat = (reportOf i s.val s.sym).kind := by simp [effect_stat]
@[simp] theorem statP_effect : statP (effect i s).stat = (reportOf i s.val s.sym).p := by simp [effect_stat]
@[simp] theorem statPos_effect : statPos (effect i s).stat = (reportOf i s.val s.sym).pos := by simp [effect_stat]
@[simp] theorem statInfo_effect : statInfo (effect i s).stat = (reportOf i s.val s.sym).info := by simp [effect_stat]
@[simp] theorem statFlt_effect : statFlt (effect i s).stat = statFlt s.stat := by simp [effect_stat]
@[simp] theorem statFop_effect : statFop (effect i s).stat = statFop s.stat := by simp [effect_stat]
@[simp] theorem statReserved_effect : statReserved (effect i s).stat = 0#5 := by simp [effect_stat]
@[simp] theorem faulted_effect : faulted (effect i s) = faulted s := statFlt_effect i s

/-- A command does not move the stream: the bytes received stay. -/
@[simp] theorem effect_received : (effect i s).received = s.received := by
  cases i with
  | dec => exact applyDecoding_received _ s
  | ldv _ | lds _ | enc | gen | chk7 => simp [effect]

/-- A command does not move the stream: what the host does next stays. -/
@[simp] theorem effect_input : (effect i s).input = s.input := by
  cases i with
  | dec => exact applyDecoding_input _ s
  | ldv _ | lds _ | enc | gen | chk7 => simp [effect]

/-- Only GEN takes a draw (R28). -/
theorem effect_draws {i : Instr} (h : i ≠ .gen) : (effect i s).draws = s.draws := by
  cases i with
  | dec => exact applyDecoding_draws _ s
  | gen => exact absurd rfl h
  | ldv _ | lds _ | enc | chk7 => simp [effect]

/-- A command leaves a report that the invariant allows, whatever STAT was (R24, R33). -/
theorem reportInv_effect : ReportInv (effect i s).stat := by
  simp only [ReportInv, statKind_effect, statP_effect, statPos_effect, statInfo_effect]
  obtain ⟨p, hr⟩ | ⟨k, hk, hr⟩ | ⟨h0, h7, hr⟩ := reportOf_cases i s.val s.sym
  · exact .inl (by simp [hr])
  · have hpos : (BitVec.ofNat 5 k.val).toNat < 26 := (Nat.mod_le _ _).trans_lt k.isLt
    exact .inr (.inl (by rw [hr]; exact ⟨rfl, rfl, hpos, hk⟩))
  · exact .inr (.inr (by rw [hr]; exact ⟨rfl, rfl, rfl, h0, h7⟩))

/-- FLT and FOP are no command's to write, and the hard-wired bits read 0 (R23, R33). -/
theorem sameFaultRecord_effect : SameFaultRecord s (effect i s) := by
  simp [SameFaultRecord, statOut]

end effect

/-- A command answers a next state exactly where FLT = 0, and then its effect (R25). -/
theorem exec_eq_next_iff (i : Instr) (s t : State) : exec i s = .next t ↔ faulted s = false ∧ t = effect i s := by
  rw [exec_eq, whileRunning_eq_next_iff]

theorem exec_running {i : Instr} {s : State} (h : Running s) : exec i s = .next (effect i s) :=
  (exec_eq_next_iff i s _).2 ⟨h, rfl⟩

/-- VAL and SYM after a command depend on VAL and SYM before it and, for GEN, on the draws only (R20). -/
theorem effect_registers_congr {i : Instr} {s1 s2 : State} (hval : s1.val = s2.val) (hsym : s1.sym = s2.sym)
    (hdraws : i = .gen → s1.draws = s2.draws) :
    (effect i s1).val = (effect i s2).val ∧ (effect i s1).sym = (effect i s2).sym := by
  cases i with
  | ldv _ | lds _ | enc | dec | chk7 => simp [effect, hval, hsym]
  | gen => simp [effect, clockAnswer, randomAnswer, hsym, hdraws rfl]

/-- A successful DEC makes the state paired, a failed one leaves the pairing as it was (R32, R188). -/
theorem paired_effect_dec (s : State) :
    (statKind (effect .dec s).stat = 0#4 → Paired (effect .dec s)) ∧
    (statKind (effect .dec s).stat ≠ 0#4 → (Paired (effect .dec s) ↔ Paired s)) := by
  rw [statKind_effect, reportOf, effect]
  cases hd : codecDecode s.sym with
  | value a => exact ⟨fun _ => paired_of_codecDecode hd, fun h => absurd rfl h⟩
  | invalidSuffixAlphabet k c => exact ⟨nofun, fun _ => Iff.rfl⟩
  | suffixOverflow c => exact ⟨nofun, fun _ => Iff.rfl⟩

/-! ### The invariant -/

/-- The decoder calls only an unassigned byte an illegal opcode (R64, R66). -/
theorem opcodeAssigned_of_decode_illegalOpcode {bytes rest : List Byte} {op : Byte}
    (h : decode bytes = .illegalOpcode op rest) : opcodeAssigned op = false := by
  have hpayload : ∀ (n : Nat) (make : Vector Byte n → Instr) (payload : List Byte),
      decodePayload n make payload ≠ .illegalOpcode op rest := by
    intro n make payload
    obtain ⟨-, ht⟩ | ⟨v, more, -, ht⟩ := takeVector_spec n payload <;> simp [decodePayload, ht]
  cases bytes with
  | nil => cases h
  | cons b bytes =>
    simp only [decode] at h
    split at h
    case h_1 | h_2 => exact absurd h (hpayload _ _ _)
    case h_3 | h_4 | h_5 | h_6 => cases h
    case h_7 =>
      cases h
      simp_all [opcodeAssigned, packetLength]

theorem inv_effect {s : State} (h : Inv s) (i : Instr) : Inv (effect i s) := by
  obtain ⟨-, -, hfault, hreceived, hheld⟩ := h
  refine ⟨statReserved_effect i s, reportInv_effect i s, ?_, ?_, ?_⟩
  · simpa [FaultRecordInv] using hfault
  · simpa using hreceived
  · simpa using hheld

/-- At a packet boundary no byte is held. -/
theorem inv_consume {s : State} (h : Inv s) (rest : List HostInput) : Inv (consume rest s) := by
  obtain ⟨hreserved, hreport, hfault, -, -⟩ := h
  exact ⟨hreserved, hreport, hfault, decode_nil, fun _ => rfl⟩

theorem inv_takeFault {s : State} {op : Byte} (h : Inv s) (hempty : s.received = [])
    (hop : opcodeAssigned op = false) : Inv (takeFault op s) := by
  obtain ⟨-, hreport, -, hreceived, -⟩ := h
  refine ⟨by simp, ?_, ?_, hreceived, fun _ => hempty⟩
  · simpa [ReportInv] using hreport
  · simpa [FaultRecordInv] using hop

theorem inv_holdReceived {s : State} {bytes : List Byte} (h : Inv s) (hrunning : Running s)
    (hbytes : decode bytes = .incomplete) : Inv (holdReceived bytes s) := by
  obtain ⟨hreserved, hreport, hfault, -, -⟩ := h
  exact ⟨hreserved, hreport, hfault, hbytes, by simp [hrunning]⟩

theorem inv_reset : Inv State.reset :=
  ⟨by decide, .inl (by decide), by decide, decode_nil, fun _ => rfl⟩

/-- The invariant does not speak of the input and the draws. -/
theorem inv_applyReset (rest : List HostInput) (s : State) : Inv (applyReset rest s) := inv_reset

/-! ### The obligations -/

/-- Settles O3, by the cases of a step: command, illegal opcode, reset, nothing, unfinished packet; a faulted block
has no step but reset. -/
theorem stepKeepsTheInvariant : Obligations.StepKeepsTheInvariant := by
  intro s t hinv hstep
  cases hf : faulted s with
  | true =>
    obtain ⟨-, -, more, -, hs⟩ | ⟨-, -, hs⟩ := step_faulted_cases hf
    · cases hs.symm.trans hstep
      exact inv_applyReset more s
    · cases hs.symm.trans hstep
  | false =>
    obtain ⟨i, rest, -, hs⟩ | ⟨op, rest, hd, hs⟩ |
      ⟨hd, ⟨-, more, -, hs⟩ | ⟨-, -, hs⟩ | ⟨-, -, hs⟩⟩ := step_running_cases hf
    all_goals cases hs.symm.trans hstep
    · exact inv_effect (inv_consume hinv _) i
    · exact inv_takeFault (inv_consume hinv _) rfl (opcodeAssigned_of_decode_illegalOpcode hd)
    · exact inv_applyReset more s
    · exact hinv
    · exact inv_holdReceived hinv hf hd

/-- Settles O39: the next state is the command's effect, whose report is `reportOf` of VAL and SYM. -/
theorem everyCompletedCommandReports : Obligations.EveryCompletedCommandReports := by
  intro i s hrunning
  refine ⟨effect i s, exec_running hrunning, reportInv_effect i s, ?_, ?_, sameFaultRecord_effect i s⟩
  · rw [statKind_effect]
    exact eq_dec_of_reportOf_kind
  · rw [statP_effect]
    exact eq_chk7_of_reportOf_p

/-- Settles O40, from the frame of each command's effect. -/
theorem onlyTheNamedCommandsWriteARegister : Obligations.OnlyTheNamedCommandsWriteARegister := by
  intro i s t hexec
  obtain ⟨-, rfl⟩ := (exec_eq_next_iff i s t).1 hexec
  refine ⟨⟨effect_received i s, effect_input i s⟩, ?_, ?_, effect_draws s⟩
  · rintro (rfl | rfl | ⟨x, rfl⟩) <;> simp [effect]
  · rintro (rfl | rfl | rfl | ⟨x, rfl⟩) <;> simp [effect]

/-- Settles O43: registers by `effect_registers_congr`, and the report is `reportOf` of VAL and SYM. -/
theorem resultsDependOnDataRegistersAndDrawsOnly : Obligations.ResultsDependOnDataRegistersAndDrawsOnly := by
  intro i s1 s2 t1 t2 hval hsym hdraws h1 h2
  obtain ⟨-, rfl⟩ := (exec_eq_next_iff i s1 t1).1 h1
  obtain ⟨-, rfl⟩ := (exec_eq_next_iff i s2 t2).1 h2
  obtain ⟨hval', hsym'⟩ := effect_registers_congr hval hsym hdraws
  exact ⟨hval', hsym', by simp [Reports, hval, hsym]⟩

/-- Settles O44: ENC because decoding undoes encoding, DEC by `paired_effect_dec`, CHK7 because it writes neither
register. -/
theorem pairingIsMadeAndKept : Obligations.PairingIsMadeAndKept := by
  intro s hrunning
  exact ⟨⟨_, exec_running hrunning, paired_of_codecDecode (by simp [effect])⟩,
    ⟨_, exec_running hrunning, paired_effect_dec s⟩,
    ⟨_, exec_running hrunning, paired_congr (by simp [effect]) (by simp [effect])⟩⟩

/-- Settles O45: a slice of a port is the digit of its number at that place. -/
theorem outputPortsShowTheRegisters : Obligations.OutputPortsShowTheRegisters := by
  intro s
  refine ⟨fun i => ?_, fun k => s208_slice s.sym k.val k.isLt, statRead_eq_self⟩
  calc (v128 s.val).extractLsb' (120 - 8 * i.val) 8
      = (bytes16 (v128 s.val))[i] := (bytes16_getElem _ _ i.isLt).symm
    _ = s.val[i] := by rw [bytes16_v128]

/-- Settles O46: STAT_OUT is a word that `statWord` built. -/
theorem statOutHasTheLayout : Obligations.StatOutHasTheLayout := by
  intro s
  obtain ⟨hhigh, hlow⟩ := (statReserved_eq_zero_iff (statOut s)).1 (statReserved_statRead s.stat)
  exact ⟨toNat_statWord _ _ _ _ _ _, hlow, hhigh⟩

/-- Settles O1: the fields by evaluation, the ports through `outputPortsShowTheRegisters`. -/
theorem resetStateIsAsSpecified : Obligations.ResetStateIsAsSpecified := by
  obtain ⟨-, hsymOut, hstatOut⟩ := outputPortsShowTheRegisters State.reset
  have hsym : ∀ k : Fin 26, State.reset.sym[k] = 0x30#8 := by decide
  exact ⟨by decide, hsym, by decide, by decide, by decide, by decide, hstatOut (by decide),
    fun k => (hsymOut k).trans (hsym k)⟩

/-- Settles O2: the base case of O3's invariant; the reset SYM is the encoding of the reset VAL. -/
theorem resetMeetsTheInvariantAndIsPaired : Obligations.ResetMeetsTheInvariantAndIsPaired := by
  have hsym : State.reset.sym = codecEncode State.reset.val := by decide
  exact ⟨inv_reset, paired_of_codecDecode (by rw [hsym, codecDecode_codecEncode])⟩

/-- Settles O17: the guard stops every command, and bytes alone hold no reset. -/
theorem faultedBlockExecutesNothing : Obligations.FaultedBlockExecutesNothing := by
  intro s hf
  refine ⟨fun i => by rw [exec_eq, whileRunning_faulted hf], fun bytes hbytes => ?_⟩
  obtain ⟨_, presented, _, hinput, -⟩ | ⟨-, -, hs⟩ := step_faulted_cases hf
  · have hmem : HostInput.rst presented ∈ s.input := by simp [hinput]
    simp [hbytes] at hmem
  · exact hs

end Sys2Proof.Machine
end

section
/-! SUPPORT. Proofs of the memory family: every command but GEN, issued again, leaves what it left (20_memory.md R44),
and packets take effect one at a time in the order they were sent (R47, 70_reset_and_hazards.md R217). -/

namespace Sys2Proof

/-! ### A packet at the head of the stream -/

/-- A payload that is all there makes its command (R62, R63, R70). -/
theorem decodePayload_append {n : Nat} (make : Vector Byte n → Instr) (v : Vector Byte n) (rest : List Byte) :
    decodePayload n make (v.toList ++ rest) = .command (make v) rest := by
  simp [decodePayload, takeVector_append]

/-- The decoder reads a packet back as its command and leaves what follows it (R60, R64). -/
theorem decode_encode_append (i : Instr) (rest : List Byte) : decode (encode i ++ rest) = .command i rest := by
  cases i with
  | ldv v => exact decodePayload_append .ldv v rest
  | lds x => exact decodePayload_append .lds x rest
  | enc | dec | gen | chk7 => rfl

end Sys2Proof

namespace Sys2Proof.Machine

/-! ### Repeating a command -/

/-- Of two completions the later one alone is left (R33). -/
@[simp] theorem complete_complete (kind kind' : Kind) (p p' : Bool) (pos pos' : BitVec 5) (info info' : Byte)
    (s : State) : complete kind' p' pos' info' (complete kind p pos info s) = complete kind' p' pos' info' s := by
  simp [complete]

/-- Writing VAL between two completions is as good as writing it before both. -/
@[simp] theorem writeVal_complete (a : Value) (kind : Kind) (p : Bool) (pos : BitVec 5) (info : Byte) (s : State) :
    writeVal a (complete kind p pos info s) = complete kind p pos info (writeVal a s) := rfl

/-- Writing SYM between two completions is as good as writing it before both. -/
@[simp] theorem writeSym_complete (a : Suffix) (kind : Kind) (p : Bool) (pos : BitVec 5) (info : Byte) (s : State) :
    writeSym a (complete kind p pos info s) = complete kind p pos info (writeSym a s) := rfl

@[simp] theorem writeVal_writeVal (a b : Value) (s : State) : writeVal a (writeVal b s) = writeVal a s := rfl
@[simp] theorem writeSym_writeSym (a b : Suffix) (s : State) : writeSym a (writeSym b s) = writeSym a s := rfl

/-- What DEC writes for an answer it writes again for the same answer (R96, R188). -/
@[simp] theorem applyDecoding_applyDecoding (d : Decoding) (s : State) :
    applyDecoding d (applyDecoding d s) = applyDecoding d s := by
  cases d <;> simp [applyDecoding, completeOk]

/-- Only GEN has an effect that its repetition changes (R44). -/
theorem effect_effect {i : Instr} (h : i ≠ .gen) (s : State) : effect i (effect i s) = effect i s := by
  cases i with
  | gen => exact absurd rfl h
  | dec => simp [effect]
  | ldv _ | lds _ | enc | chk7 => simp [effect, completeOk]

/-! ### Running a stream of packets -/

/-- At a packet boundary sending to a block that is offered nothing makes the bytes the whole input. -/
theorem hostSend_eq_consume {s : State} (hreceived : s.received = []) (hinput : s.input = []) (bytes : List Byte) :
    hostSend bytes s = consume (bytes.map HostInput.byte) s := by
  simp [hostSend, consume, hreceived, hinput]

/-- Taking in what is there already changes nothing. -/
theorem consume_self {s : State} (hreceived : s.received = []) : consume s.input s = s := by
  rw [consume, ← hreceived]

@[simp] theorem consume_consume (rest rest' : List HostInput) (s : State) :
    consume rest (consume rest' s) = consume rest s := rfl

/-- What DEC writes does not depend on the stream. -/
theorem applyDecoding_consume (d : Decoding) (rest : List HostInput) (s : State) :
    applyDecoding d (consume rest s) = consume rest (applyDecoding d s) := by
  cases d <;> rfl

/-- A command neither reads nor moves the stream (R20). -/
theorem effect_consume (i : Instr) (rest : List HostInput) (s : State) :
    effect i (consume rest s) = consume rest (effect i s) := by
  cases i with
  | dec => exact applyDecoding_consume (codecDecode s.sym) rest s
  | ldv _ | lds _ | enc | gen | chk7 => rfl

/-- A whole packet in front of anything the host does is one step: the packet taken, its command's effect (R64). -/
theorem step_packet {s : State} (h : Running s) (i : Instr) (rest : List HostInput) :
    step (consume ((encode i).map HostInput.byte ++ rest) s) = .next (consume rest (effect i s)) := by
  have hrest := (splitAtReset_spec rest).1
  have hdecode := decode_encode_append i (splitAtReset rest).1
  obtain ⟨j, more, hd, hs⟩ | ⟨op, more, hd, -⟩ | ⟨hd, -⟩ :=
    step_running_cases (s := consume ((encode i).map HostInput.byte ++ rest) s) h
  all_goals
    rw [consume_received, consume_input, splitAtReset_bytes_append, List.nil_append, hdecode] at hd
    cases hd
  rw [hs, consume_input, splitAtReset_bytes_append, ← hrest, consume_consume, effect_consume]

/-- The effects of a list of commands, one after another (R47). -/
def effectAll (is : List Instr) (s : State) : State := is.foldl (fun t i => effect i t) s

@[simp] theorem effectAll_nil (s : State) : effectAll [] s = s := rfl
@[simp] theorem effectAll_cons (i : Instr) (is : List Instr) (s : State) :
    effectAll (i :: is) s = effectAll is (effect i s) := rfl

@[simp] theorem faulted_effectAll (is : List Instr) (s : State) : faulted (effectAll is s) = faulted s := by
  induction is generalizing s with
  | nil => rfl
  | cons i is ih => simp [ih]

@[simp] theorem effectAll_received (is : List Instr) (s : State) : (effectAll is s).received = s.received := by
  induction is generalizing s with
  | nil => rfl
  | cons i is ih => simp [ih]

@[simp] theorem effectAll_input (is : List Instr) (s : State) : (effectAll is s).input = s.input := by
  induction is generalizing s with
  | nil => rfl
  | cons i is ih => simp [ih]

/-- While FLT = 0 no command of a list stops: the list has its effects (R33, R47). -/
theorem execAll_running (is : List Instr) {s : State} (h : Running s) : execAll is s = .next (effectAll is s) := by
  induction is generalizing s with
  | nil => rfl
  | cons i is ih =>
    have hnext : Running (effect i s) := (faulted_effect i s).trans h
    simp only [execAll, exec_running h, ih hnext, effectAll_cons]

/-- As many steps as there are packets have the effects of their commands, whatever the host does after them (R47). -/
theorem runSteps_packets (is : List Instr) (rest : List HostInput) {s : State} (h : Running s) :
    runSteps is.length (consume ((is.flatMap encode).map HostInput.byte ++ rest) s) =
      consume rest (effectAll is s) := by
  induction is generalizing s with
  | nil => rfl
  | cons i is ih =>
    have hnext : Running (effect i s) := (faulted_effect i s).trans h
    simp only [List.length_cons, List.flatMap_cons, List.map_append, List.append_assoc, runSteps, step_packet h,
      ih hnext, effectAll_cons]

/-- A running block with nothing received and nothing offered has completed (R217). -/
theorem runOutcome_completed {s : State} (h : Running s) (hreceived : s.received = []) (hinput : s.input = []) :
    runOutcome s = some .completed := by
  simp [runOutcome, h, hreceived, hinput]

/-! ### The obligations -/

/-- Settles O13: executing the commands and stepping through their packets both end in `effectAll`. -/
theorem wholePacketsRunInOrder : Obligations.WholePacketsRunInOrder := by
  intro is s hrunning hreceived hinput
  have hreceived' : (effectAll is s).received = [] := (effectAll_received is s).trans hreceived
  have hinput' : (effectAll is s).input = [] := (effectAll_input is s).trans hinput
  refine ⟨effectAll is s, execAll_running is hrunning, ?_,
    runOutcome_completed ((faulted_effectAll is s).trans hrunning) hreceived' hinput'⟩
  calc runSteps is.length (hostSend (is.flatMap encode) s)
      = runSteps is.length (consume ((is.flatMap encode).map HostInput.byte ++ []) s) := by
        rw [hostSend_eq_consume hreceived hinput, List.append_nil]
    _ = consume [] (effectAll is s) := runSteps_packets is [] hrunning
    _ = effectAll is s := by rw [← hinput', consume_self hreceived']

/-- Settles O42: the first command leaves FLT as it was, and its effect is not changed by the second. -/
theorem commandsOtherThanGenAreIdempotent : Obligations.CommandsOtherThanGenAreIdempotent := by
  intro i s t hgen hexec
  obtain ⟨hrunning, rfl⟩ := (exec_eq_next_iff i s t).1 hexec
  rw [exec_running ((faulted_effect i s).trans hrunning), effect_effect hgen]

end Sys2Proof.Machine
end

section
/-! SUPPORT. Proofs of the encoding family: everything the packet decoder can answer, the step on a whole and on an
unfinished packet, the lines of assembly, and the pseudo-instructions (spec 30_encoding.md). -/

namespace Sys2Proof

/-! ### Everything the decoder can answer -/

/-- An opcode byte that implies no length is illegal, and nothing after it is consumed (R64, R66). -/
theorem decode_illegalOpcode {op : Byte} (h : packetLength op = none) (bytes : List Byte) :
    decode (op :: bytes) = .illegalOpcode op bytes := by
  rw [packetLength_eq_none_iff] at h
  simp only [decode]
  split
  case h_7 => rfl
  all_goals omega

/-- The opcode bytes that imply a length are the six of R65. -/
theorem opcode_cases {op : Byte} (h : packetLength op ≠ none) :
    op = 0x01#8 ∨ op = 0x02#8 ∨ op = 0x03#8 ∨ op = 0x04#8 ∨ op = 0x05#8 ∨ op = 0x06#8 := by
  rw [Ne, packetLength_eq_none_iff] at h
  simp only [← BitVec.toNat_inj, BitVec.toNat_ofNat]
  omega

/-- Everything the payload reader can answer (R62, R63, R70). -/
theorem decodePayload_cases {n : Nat} (make : Vector Byte n → Instr) (payload : List Byte) :
    (∃ v rest, payload = Vector.toList v ++ rest ∧ decodePayload n make payload = .command (make v) rest) ∨
    (payload.length < n ∧ decodePayload n make payload = .incomplete) := by
  obtain ⟨hshort, ht⟩ | ⟨v, rest, rfl, -⟩ := takeVector_spec n payload
  · exact .inr ⟨hshort, by simp [decodePayload, ht]⟩
  · exact .inl ⟨v, rest, rfl, decodePayload_append make v rest⟩

/-- Everything the decoder can answer (R64, R66, R70): a command, whose packet is at the head of the stream; an illegal
opcode; or nothing yet, because the stream is shorter than its opcode byte implies. -/
theorem decode_cases (bytes : List Byte) :
    (∃ i rest, bytes = encode i ++ rest ∧ decode bytes = .command i rest) ∨
    (∃ op rest, bytes = op :: rest ∧ packetLength op = none ∧ decode bytes = .illegalOpcode op rest) ∨
    (decode bytes = .incomplete ∧
      ∀ op payload, bytes = op :: payload → ∃ n, packetLength op = some n ∧ payload.length + 1 < n) := by
  cases bytes with
  | nil => exact .inr (.inr ⟨rfl, nofun⟩)
  | cons op payload =>
    by_cases hop : packetLength op = none
    · exact .inr (.inl ⟨op, payload, rfl, hop, decode_illegalOpcode hop payload⟩)
    obtain rfl | rfl | rfl | rfl | rfl | rfl := opcode_cases hop
    · obtain ⟨v, rest, rfl, hd⟩ | ⟨hshort, hd⟩ := decodePayload_cases .ldv payload
      · exact .inl ⟨.ldv v, rest, rfl, hd⟩
      · refine .inr (.inr ⟨hd, ?_⟩)
        rintro _ _ ⟨⟩
        exact ⟨17, rfl, by omega⟩
    · obtain ⟨v, rest, rfl, hd⟩ | ⟨hshort, hd⟩ := decodePayload_cases .lds payload
      · exact .inl ⟨.lds v, rest, rfl, hd⟩
      · refine .inr (.inr ⟨hd, ?_⟩)
        rintro _ _ ⟨⟩
        exact ⟨27, rfl, by omega⟩
    · exact .inl ⟨.enc, payload, rfl, rfl⟩
    · exact .inl ⟨.dec, payload, rfl, rfl⟩
    · exact .inl ⟨.gen, payload, rfl, rfl⟩
    · exact .inl ⟨.chk7, payload, rfl, rfl⟩

/-- A command is decoded from exactly its packet: no byte is skipped (R61, R64). -/
theorem decode_eq_command_iff (i : Instr) (bytes rest : List Byte) :
    decode bytes = .command i rest ↔ bytes = encode i ++ rest := by
  constructor
  · intro h
    obtain ⟨_, _, rfl, hd⟩ | ⟨_, _, -, -, hd⟩ | ⟨hd, -⟩ := decode_cases bytes
    all_goals cases hd.symm.trans h
    rfl
  · rintro rfl
    exact decode_encode_append i rest

/-- The length that the first byte of a packet implies is the length of the packet (R64). -/
theorem packetLength_of_eq_encode_append {op : Byte} {payload rest : List Byte} {i : Instr}
    (h : op :: payload = encode i ++ rest) : packetLength op = some (encode i).length := by
  obtain ⟨rfl, -⟩ := List.cons.inj h
  exact packetLength_opcodeOf i

/-- A proper beginning of a packet is no packet yet (R70). -/
theorem decode_incomplete_of_encode_eq_append {i : Instr} {first second : List Byte} (h : encode i = first ++ second)
    (hsecond : second ≠ []) : decode first = .incomplete := by
  obtain ⟨j, rest, rfl, -⟩ | ⟨op, rest, rfl, hop, -⟩ | ⟨hd, -⟩ := decode_cases first
  · have hwhole := decode_encode_append i []
    rw [List.append_nil, h, List.append_assoc, decode_encode_append] at hwhole
    simp [hsecond] at hwhole
  · have hlength := packetLength_of_eq_encode_append (rest := []) (by simpa using h.symm)
    simp [hop] at hlength
  · exact hd

/-- Fewer bytes than the opcode byte implies are incomplete, and more are a command that takes exactly that many,
whatever the payload (R64). -/
theorem decode_of_packetLength {op : Byte} {n : Nat} (h : packetLength op = some n) (bytes : List Byte) :
    if bytes.length + 1 < n then decode (op :: bytes) = .incomplete
    else ∃ i, decode (op :: bytes) = .command i ((op :: bytes).drop n) := by
  obtain ⟨i, rest, hbytes, hd⟩ | ⟨_, _, ⟨⟩, hop, -⟩ | ⟨hd, hshort⟩ := decode_cases (op :: bytes)
  · have hn := packetLength_of_eq_encode_append hbytes
    obtain rfl : n = (encode i).length := Option.some.inj (h.symm.trans hn)
    have hlength := congrArg List.length hbytes
    rw [List.length_cons, List.length_append] at hlength
    rw [if_neg (by omega)]
    exact ⟨i, by rw [hd, hbytes, List.drop_left]⟩
  · simp [h] at hop
  · obtain ⟨m, hm, hlt⟩ := hshort op bytes rfl
    obtain rfl : n = m := Option.some.inj (h.symm.trans hm)
    rw [if_pos hlt]
    exact hd

end Sys2Proof

namespace Sys2Proof.Machine

/-! ### The step on a packet in parts -/

/-- A packet of which some bytes were received before is one step once the others are presented: its command, the packet
being consumed (R60, R70). -/
theorem step_completes_packet {s : State} {i : Instr} {bytes : List Byte} {more : List HostInput} (h : Running s)
    (hpacket : s.received ++ bytes = encode i) (hinput : s.input = bytes.map HostInput.byte ++ more) :
    step s = exec i (consume more s) := by
  have hmore := (splitAtReset_spec more).1
  have hdecode := decode_encode_append i (splitAtReset more).1
  have hexec : exec i (consume more s) = .next (effect i (consume more s)) := exec_running h
  obtain ⟨j, rest, hd, hs⟩ | ⟨op, rest, hd, -⟩ | ⟨hd, -⟩ := step_running_cases h
  all_goals
    rw [hinput, splitAtReset_bytes_append, ← List.append_assoc, hpacket, hdecode] at hd
    cases hd
  rw [hexec, hs, hinput, splitAtReset_bytes_append, ← hmore]

/-- The bytes of an unfinished packet are taken and held (R70). -/
theorem step_unfinished {s : State} {bytes : List Byte} (h : Running s) (hne : s.received ++ bytes ≠ [])
    (hinput : s.input = bytes.map HostInput.byte) (hdecode : decode (s.received ++ bytes) = .incomplete) :
    step s = .next (holdReceived (s.received ++ bytes) s) := by
  have hsplit : splitAtReset s.input = (bytes, []) := by rw [hinput, splitAtReset_bytes]
  obtain ⟨_, _, hd, -⟩ | ⟨_, _, hd, -⟩ | ⟨-, ⟨_, _, hreset, -⟩ | ⟨-, hempty, -⟩ | ⟨-, -, hs⟩⟩ :=
    step_running_cases h
  · simp [hsplit, hdecode] at hd
  · simp [hsplit, hdecode] at hd
  · simp [hsplit] at hreset
  · exact absurd (by simpa [hsplit] using hempty) hne
  · simpa [hsplit] using hs

/-- A running block that holds bytes and is offered no more is waiting (R217). -/
theorem runOutcome_waiting {s : State} (h : Running s) (hreceived : s.received ≠ []) (hinput : s.input = []) :
    runOutcome s = some .waiting := by
  simp [runOutcome, h, hreceived, hinput]

@[simp] theorem holdReceived_holdReceived (bytes bytes' : List Byte) (s : State) :
    holdReceived bytes (holdReceived bytes' s) = holdReceived bytes s := rfl

/-! ### Lines of assembly -/

/-- The digits of R68 and their values: `0` to `9`, `a` to `f`, `A` to `F`. -/
theorem hexDigit_eq_some_iff (c : Char) (n : BitVec 4) :
    hexDigit c = some n ↔
      (n.toNat < 10 ∧ c.toNat = 0x30 + n.toNat) ∨ (10 ≤ n.toNat ∧ c.toNat = 0x61 + (n.toNat - 10)) ∨
      (10 ≤ n.toNat ∧ c.toNat = 0x41 + (n.toNat - 10)) := by
  have hn := n.isLt
  unfold hexDigit
  split_ifs
  case neg =>
    rw [false_iff]
    omega
  all_goals
    simp only [Option.some.injEq, ← BitVec.toNat_inj, BitVec.toNat_ofNat]
    omega

/-- LDV gives a packet exactly where its digits spell 16 bytes, high digit first (R68). -/
theorem assembleLine_ldvHex_iff (digits : List Char) (packet : List Byte) :
    assembleLine (.ldvHex digits) = some packet ↔
      ∃ v : Value, packet = 0x01#8 :: v.toList ∧
        digits.map hexDigit = v.toList.flatMap fun b => [some (b.extractLsb' 4 4), some (b.extractLsb' 0 4)] := by
  rw [assembleLine, assemblePayload_eq_some_iff]
  simp only [hexBytes_eq_some_iff, and_comm, encode, opcodeOf, payloadOf]

/-- LDS with text gives a packet exactly where the text is 26 8-bit codes (R68). -/
theorem assembleLine_ldsText_iff (chars : List Char) (packet : List Byte) :
    assembleLine (.ldsText chars) = some packet ↔
      ∃ a : Suffix, packet = 0x02#8 :: a.toList ∧ chars.map Char.toNat = a.toList.map BitVec.toNat := by
  rw [assembleLine, assemblePayload_eq_some_iff]
  simp only [charBytes_eq_some_iff, and_comm, encode, opcodeOf, payloadOf]

/-- LDS with byte literals gives a packet exactly for 26 bytes (R68). -/
theorem assembleLine_ldsBytes_iff (bytes packet : List Byte) :
    assembleLine (.ldsBytes bytes) = some packet ↔
      ∃ a : Suffix, packet = 0x02#8 :: a.toList ∧ bytes = a.toList := by
  rw [assembleLine, assemblePayload_eq_some_iff]
  simp only [Option.some.injEq, and_comm, encode, opcodeOf, payloadOf]

/-! ### Legal strings and DEC -/

/-- The legal suffixes are exactly the strings that decode to a value (R96, R98). -/
theorem legalSuffix_iff_codecDecode (x : Suffix) : LegalSuffix x ↔ ∃ a, codecDecode x = .value a := by
  refine ⟨?_, fun ⟨_, hd⟩ => legalSuffix_of_codecDecode hd⟩
  rintro ⟨hall, -, h7⟩
  have hnone := (firstInvalid_eq_none_iff x).2 hall
  have hgroup := (firstGroup_le_seven_iff (isSymbol_first hnone)).2 h7
  obtain ⟨k, hk, -⟩ | ⟨-, hover, -⟩ | ⟨-, -, hd⟩ := codecDecode_cases x
  · simp [hnone] at hk
  · omega
  · exact ⟨_, hd⟩

/-! ### The obligations -/

/-- Settles O5: `decode_encode_append`, command by command; every command is well formed, so that hypothesis is not
needed. -/
theorem decodeOfEncodeReturnsTheCommand : Obligations.DecodeOfEncodeReturnsTheCommand :=
  fun i rest _ => decode_encode_append i rest

/-- Settles O6, by what the decoder can answer. -/
theorem decodedBytesAreTheEncoding : Obligations.DecodedBytesAreTheEncoding :=
  fun i bytes rest => (decode_eq_command_iff i bytes rest).1

/-- Settles O7, by what the decoder can answer on a stream that begins with the opcode byte. -/
theorem opcodeByteAloneTellsTheLength : Obligations.OpcodeByteAloneTellsTheLength := by
  refine ⟨rfl, rfl, rfl, rfl, rfl, rfl, fun op bytes hop => ?_, fun op bytes n hn => decode_of_packetLength hn bytes⟩
  have hnone := (packetLength_eq_none_iff op).2 hop
  exact ⟨hnone, decode_illegalOpcode hnone bytes⟩

/-- Settles O8: each legal packet is the encoding of its command, and 0x07 implies no length. -/
theorem listedPacketsDecode : Obligations.ListedPacketsDecode :=
  ⟨(decode_eq_command_iff _ _ _).2 (by decide), (decode_eq_command_iff _ _ _).2 (by decide),
    decode_encode_append .enc [], decode_encode_append .dec [], decode_encode_append .gen [],
    decode_encode_append .chk7 [], decode_illegalOpcode rfl _⟩

/-- Settles O9: the bytes of both sources are decoded as one stream. -/
theorem stepRunsTheDecodedInstruction : Obligations.StepRunsTheDecodedInstruction :=
  fun _ _ _ _ hrunning hpacket hinput => step_completes_packet hrunning hpacket hinput

/-- Settles O10: the state that holds the bytes is reached, and holding them again changes nothing. -/
theorem unfinishedPacketWaits : Obligations.UnfinishedPacketWaits := by
  intro s bytes hrunning hne hinput hdecode
  have hagain : step (holdReceived (s.received ++ bytes) s) =
      .next (holdReceived (s.received ++ bytes) s) := by
    simpa using step_unfinished (s := holdReceived (s.received ++ bytes) s) (bytes := []) hrunning
      (by simpa using hne) rfl (by simpa using hdecode)
  exact ⟨_, step_unfinished hrunning hne hinput hdecode, rfl, rfl, rfl, rfl, rfl, rfl,
    runOutcome_waiting hrunning hne rfl, hagain⟩

/-- Settles O11: the first part is held, since it is no packet yet, and the second completes the packet. -/
theorem lateBytesCompleteThePacket : Obligations.LateBytesCompleteThePacket := by
  intro s i first second hrunning hreceived hinput hpacket hfirst hsecond
  have hdecode := decode_incomplete_of_encode_eq_append hpacket hsecond
  have hhold : step s = .next (holdReceived first s) := by
    simpa [hreceived] using step_unfinished hrunning (by simpa [hreceived] using hfirst) hinput
      (by simpa [hreceived] using hdecode)
  have hlate : step (hostSend second (holdReceived first s)) =
      exec i (consume [] (hostSend second (holdReceived first s))) :=
    step_completes_packet (bytes := second) hrunning hpacket.symm (by simp)
  exact ⟨_, hhold, runOutcome_waiting hrunning hfirst rfl, hlate⟩

/-- Settles O47: row by row; a wrong length contradicts the length of the bytes the operand would spell. -/
theorem assemblyLinesGivePackets : Obligations.AssemblyLinesGivePackets := by
  refine ⟨assembleLine_ldvHex_iff, hexDigit_eq_some_iff, assembleLine_ldsText_iff, assembleLine_ldsBytes_iff,
    rfl, rfl, rfl, rfl, fun _ => rfl, fun _ => rfl, ?_, ?_, ?_⟩
  · intro bytes hlength
    refine Option.eq_none_iff_forall_ne_some.2 fun packet hp => hlength ?_
    obtain ⟨a, -, rfl⟩ := (assembleLine_ldsBytes_iff bytes packet).1 hp
    simp
  · intro chars hlength
    refine Option.eq_none_iff_forall_ne_some.2 fun packet hp => hlength ?_
    obtain ⟨a, -, hchars⟩ := (assembleLine_ldsText_iff chars packet).1 hp
    simpa using congrArg List.length hchars
  · intro digits hlength
    refine Option.eq_none_iff_forall_ne_some.2 fun packet hp => hlength ?_
    obtain ⟨v, -, hdigits⟩ := (assembleLine_ldvHex_iff digits packet).1 hp
    simpa [List.length_flatMap] using congrArg List.length hdigits

/-- Settles O48: a running block has the effects of the two commands of each expansion. -/
theorem pseudoInstructionsRenderTheFunctions : Obligations.PseudoInstructionsRenderTheFunctions := by
  intro s hrunning
  refine ⟨fun v => ⟨_, execAll_running _ hrunning, ?_⟩, fun x => ⟨_, execAll_running _ hrunning, ?_⟩,
    ⟨_, execAll_running _ hrunning, ?_⟩⟩
  · simp [expand, effect]
  · have hval : (effectAll (expand (.decodeString x)) s).val = (codecDecode x).valueOr s.val := by
      simp [expand, effect]
    have hkind : statKind (effectAll (expand (.decodeString x)) s).stat = (codecDecode x).report.kind := by
      simp [expand, effect, applyDecoding_stat]
    rw [hval, hkind, legalSuffix_iff_codecDecode]
    cases codecDecode x <;> simp [Decoding.valueOr, Decoding.report]
  · simp [expand, effect]

end Sys2Proof.Machine
end

section
/-! SUPPORT. Proofs of the transfer family: LDV and LDS copy their operands and leave the rest (spec 40_transfer.md). -/

namespace Sys2Proof.Machine

/-! ### The effects of the transfers -/

/-- VAL holds the operand of LDV, no byte of it changed (R62, R80). -/
@[simp] theorem effect_ldv_val (immV : Value) (s : State) : (effect (.ldv immV) s).val = immV := by simp [effect]
@[simp] theorem effect_ldv_sym (immV : Value) (s : State) : (effect (.ldv immV) s).sym = s.sym := by simp [effect]

/-- SYM holds the operand of LDS, no byte of it changed or checked (R63, R81). -/
@[simp] theorem effect_lds_sym (immS : Suffix) (s : State) : (effect (.lds immS) s).sym = immS := by simp [effect]
@[simp] theorem effect_lds_val (immS : Suffix) (s : State) : (effect (.lds immS) s).val = s.val := by simp [effect]

/-! ### What every command leaves in the report and the stream -/

/-- The report a command leaves is `reportOf` of VAL and SYM, field by field (R33). -/
theorem reports_effect (i : Instr) (s : State) :
    Reports (effect i s) (reportOf i s.val s.sym).kind (reportOf i s.val s.sym).p (reportOf i s.val s.sym).pos
      (reportOf i s.val s.sym).info :=
  ⟨statKind_effect i s, statP_effect i s, statPos_effect i s, statInfo_effect i s⟩

/-- A command moves neither the bytes received nor the host's input. -/
theorem sameStream_effect (i : Instr) (s : State) : SameStream s (effect i s) :=
  ⟨effect_received i s, effect_input i s⟩

/-! ### The obligations -/

/-- Settles O20: the next state is LDV's effect, whose report is OK whatever VAL and SYM were. -/
theorem ldvLoadsTheValue : Obligations.LdvLoadsTheValue := by
  intro immV
  have hlength : (encode (.ldv immV)).length = 17 := by simp [encode, payloadOf]
  refine ⟨rfl, hlength, fun s hrunning => ⟨effect (.ldv immV) s, exec_running hrunning, fun i => ?_,
    effect_ldv_sym immV s, reports_effect (.ldv immV) s, sameFaultRecord_effect (.ldv immV) s,
    sameStream_effect (.ldv immV) s, effect_draws s nofun⟩⟩
  rw [effect_ldv_val]

/-- Settles O21: the next state is LDS's effect, whose report is OK whatever VAL and SYM were. -/
theorem ldsLoadsTheString : Obligations.LdsLoadsTheString := by
  intro immS
  have hlength : (encode (.lds immS)).length = 27 := by simp [encode, payloadOf]
  refine ⟨rfl, hlength, fun s hrunning => ⟨effect (.lds immS) s, exec_running hrunning, fun k => ?_,
    effect_lds_val immS s, reports_effect (.lds immS) s, sameFaultRecord_effect (.lds immS) s,
    sameStream_effect (.lds immS) s, effect_draws s nofun⟩⟩
  rw [effect_lds_sym]

end Sys2Proof.Machine
end

section
/-! SUPPORT. Proofs of the Base32 codec family: slices of the 130-bit quantity as slices of bytes and of groups, the
two tables of the spec, ENC and DEC, and the two round trips (spec 41_base32_codec.md). -/

namespace Sys2Proof.Machine

/-! ### Slices of the 130-bit quantity -/

/-- Two adjacent slices make the slice that spans them. -/
theorem slice_eq_append {n start start' high low : Nat} {x : BitVec n} {u : BitVec high} {v : BitVec low}
    (hu : x.extractLsb' start' high = u) (hv : x.extractLsb' start low = v)
    (hstart : start' = start + low := by decide) : x.extractLsb' start (high + low) = u ++ v := by
  rw [← hu, ← hv, BitVec.extractLsb'_append_extractLsb'_eq_extractLsb' hstart]

/-- A slice of a slice is a slice of the whole. -/
theorem slice_slice {n len' : Nat} (x : BitVec n) (start' : Nat) {start len : Nat} (h : start + len ≤ len') :
    (x.extractLsb' start' len').extractLsb' start len = x.extractLsb' (start' + start) len := by
  ext i hi
  have hlt : start + i < len' := by omega
  simp [hlt, Nat.add_assoc]

/-- The two implicit bits are 0 (R93). -/
theorem slice_widened_implicit (a : Value) : (widened a).extractLsb' 128 2 = 0b00#2 := by
  have hlt := (v128 a).isLt
  apply BitVec.eq_of_toNat_eq
  simp only [widened, BitVec.extractLsb'_toNat, BitVec.toNat_setWidth, Nat.shiftRight_eq_div_pow, BitVec.toNat_ofNat]
  omega

/-- A slice of the 130-bit quantity within one byte of the value is that slice of the byte (R9, R93). -/
theorem slice_widened (a : Value) (i start len : Nat) (hi : i < 16 := by decide)
    (hlen : start + len ≤ 8 := by decide) :
    (widened a).extractLsb' (120 - 8 * i + start) len = a[i].extractLsb' start len := by
  have hbyte : a[i] = (v128 a).extractLsb' (120 - 8 * i) 8 := by rw [← bytes16_getElem _ i hi, bytes16_v128]
  rw [hbyte, slice_slice _ _ hlen, widened, BitVec.extractLsb'_setWidth_of_le (by omega)]

/-- A slice of the reassembled quantity within one group is that slice of the group (R99). -/
theorem slice_reassembled (g : Groups) (k start len : Nat) (hk : k < 26 := by decide)
    (hlen : start + len ≤ 5 := by decide) :
    (reassembled g).extractLsb' (125 - 5 * k + start) len = g[k].extractLsb' start len := by
  rw [← group_reassembled g k hk, group, slice_slice _ _ hlen]

/-- Byte `i` of the reassembled value is its slice of the 130-bit quantity (R99). -/
theorem valueOfGroups_getElem (g : Groups) (i : Nat) (hi : i < 16) :
    (valueOfGroups g)[i] = (reassembled g).extractLsb' (120 - 8 * i) 8 := by
  rw [valueOfGroups, bytes16_getElem _ i hi, BitVec.extractLsb'_extractLsb'_of_le (by omega)]

/-- With a first group of at most 7 the two bits that reassembly drops are 0 (R99). -/
theorem widened_valueOfGroups {g : Groups} (h : g[0].toNat ≤ 7) : widened (valueOfGroups g) = reassembled g := by
  have hlt := (reassembled g).isLt
  rw [← group_reassembled g 0 (by decide), group, BitVec.extractLsb'_toNat, Nat.shiftRight_eq_div_pow] at h
  apply BitVec.eq_of_toNat_eq
  simp only [widened, valueOfGroups, v128_bytes16, BitVec.toNat_setWidth, BitVec.extractLsb'_toNat]
  omega

/-! ### Encoding and decoding strings -/

/-- The groups of a string of symbols are their values (R96). -/
theorem val5_eq_groupsOf {s : Suffix} {k : Nat} {hk : k < 26} (h : isSymbol s[k] = true) :
    val5 s[k] = some (groupsOf s)[k] := by
  obtain ⟨g, hg⟩ := Option.isSome_iff_exists.1 h
  simp [groupsOf, hg]

/-- The alphabet check finds the lowest index that holds no symbol (R97). -/
theorem firstInvalid_eq_some_iff (s : Suffix) (k : Fin 26) :
    firstInvalid s = some k ↔ isSymbol s[k] = false ∧ ∀ j < k, isSymbol s[j] = true := by
  rw [firstInvalid, ← Fin.find?_eq_find?_finRange, Fin.find?_eq_some_iff]
  simp

/-- An invalid character is reported before the value of the first one is looked at (R97). -/
theorem codecDecode_of_firstInvalid {s : Suffix} {k : Fin 26} (h : firstInvalid s = some k) :
    codecDecode s = .invalidSuffixAlphabet k s[k] := by
  simp [codecDecode, h]

/-- Of strings of symbols exactly those with a first group above 7 overflow (R98). -/
theorem codecDecode_of_symbols {s : Suffix} (h : ∀ k : Fin 26, isSymbol s[k] = true) :
    (7 < (groupsOf s)[0].toNat ∧ codecDecode s = .suffixOverflow s[0]) ∨
    ((groupsOf s)[0].toNat ≤ 7 ∧ codecDecode s = .value (valueOfGroups (groupsOf s))) := by
  obtain ⟨k, hk, -⟩ | ⟨-, hover⟩ | ⟨-, hvalue⟩ := codecDecode_cases s
  · simp [(firstInvalid_eq_none_iff s).2 h] at hk
  · exact .inl hover
  · exact .inr hvalue

/-- A decoded value is reassembled from the groups of a string of symbols, the first group at most 7 (R96, R98, R99). -/
theorem codecDecode_eq_value {s : Suffix} {a : Value} (h : codecDecode s = .value a) :
    firstInvalid s = none ∧ (groupsOf s)[0].toNat ≤ 7 ∧ a = valueOfGroups (groupsOf s) := by
  obtain ⟨_, -, hd⟩ | ⟨-, -, hd⟩ | ⟨hnone, h7, hd⟩ := codecDecode_cases s
  · simp [hd] at h
  · simp [hd] at h
  · exact ⟨hnone, h7, Decoding.value.inj (h.symm.trans hd)⟩

/-- Encoding undoes decoding (R101). -/
theorem codecEncode_of_codecDecode {s : Suffix} {a : Value} (h : codecDecode s = .value a) : codecEncode a = s := by
  obtain ⟨hnone, h7, rfl⟩ := codecDecode_eq_value h
  ext1 k hk
  have hsymbol : isSymbol s[k] = true := (firstInvalid_eq_none_iff s).1 hnone ⟨k, hk⟩
  rw [codecEncode, Vector.getElem_ofFn, widened_valueOfGroups h7, group_reassembled _ k hk, sym5_groupsOf hsymbol]

/-- An encoding is a legal suffix (R104). -/
theorem legalSuffix_codecEncode (a : Value) : LegalSuffix (codecEncode a) :=
  legalSuffix_of_codecDecode (codecDecode_codecEncode a)

/-- No symbol has a code below that of `0` (R90). -/
theorem zero_le_of_isSymbol {c : Byte} (h : isSymbol c = true) : 0x30 ≤ c.toNat := by
  obtain ⟨g, hg⟩ := Option.isSome_iff_exists.1 h
  rw [← sym5_of_val5 c g hg]
  exact (toNat_sym5_bounds g).1

/-- A group is above 7 exactly where its two upper bits are not both 0 (R98). -/
theorem seven_lt_iff_upperBits : ∀ g : BitVec 5, 7 < g.toNat ↔ g.extractLsb' 3 2 ≠ 0b00#2 := by decide

/-! ### The effects of ENC and DEC -/

@[simp] theorem effect_enc_val (s : State) : (effect .enc s).val = s.val := by simp [effect]
@[simp] theorem effect_enc_sym (s : State) : (effect .enc s).sym = codecEncode s.val := by simp [effect]
@[simp] theorem effect_dec_val (s : State) : (effect .dec s).val = (codecDecode s.sym).valueOr s.val := by simp [effect]
@[simp] theorem effect_dec_sym (s : State) : (effect .dec s).sym = s.sym := by simp [effect]

/-- DEC of a running block, by what `decode(SYM)` returns: the decoded value or the old one in VAL, the report, and
everything else as before (R96, R188). -/
theorem exec_dec_running {s : State} {d : Decoding} (h : Running s) (hd : codecDecode s.sym = d) :
    ∃ t, exec .dec s = .next t ∧ t.val = d.valueOr s.val ∧ t.sym = s.sym ∧
      Reports t d.report.kind d.report.p d.report.pos d.report.info ∧ SameFaultRecord s t ∧ SameStream s t ∧
      t.draws = s.draws := by
  subst hd
  exact ⟨effect .dec s, exec_running h, effect_dec_val s, effect_dec_sym s, reports_effect .dec s,
    sameFaultRecord_effect .dec s, sameStream_effect .dec s, effect_draws s nofun⟩

/-! ### The obligations -/

/-- Settles O23, row by row: each group is a slice of one byte, or of two neighbouring ones. -/
theorem groupsAreTheBitsOfVal : Obligations.GroupsAreTheBitsOfVal := fun a =>
  have part (i start len : Nat) (hi : i < 16 := by decide) (hlen : start + len ≤ 8 := by decide) :=
    slice_widened a i start len hi hlen
  ⟨slice_eq_append (slice_widened_implicit a) (part 0 5 3),
   part 0 0 5,
   part 1 3 5,
   slice_eq_append (part 1 0 3) (part 2 6 2),
   part 2 1 5,
   slice_eq_append (part 2 0 1) (part 3 4 4),
   slice_eq_append (part 3 0 4) (part 4 7 1),
   part 4 2 5,
   slice_eq_append (part 4 0 2) (part 5 5 3),
   part 5 0 5,
   part 6 3 5,
   slice_eq_append (part 6 0 3) (part 7 6 2),
   part 7 1 5,
   slice_eq_append (part 7 0 1) (part 8 4 4),
   slice_eq_append (part 8 0 4) (part 9 7 1),
   part 9 2 5,
   slice_eq_append (part 9 0 2) (part 10 5 3),
   part 10 0 5,
   part 11 3 5,
   slice_eq_append (part 11 0 3) (part 12 6 2),
   part 12 1 5,
   slice_eq_append (part 12 0 1) (part 13 4 4),
   slice_eq_append (part 13 0 4) (part 14 7 1),
   part 14 2 5,
   slice_eq_append (part 14 0 2) (part 15 5 3),
   part 15 0 5,
   group_widened_zero_le a⟩

/-- Settles O24, row by row: each byte is made of slices of two or three neighbouring groups. -/
theorem reassembledBytesAreTheBitsOfTheGroups : Obligations.ReassembledBytesAreTheBitsOfTheGroups := fun g =>
  have byte (i : Nat) (hi : i < 16 := by decide) := valueOfGroups_getElem g i hi
  have part (k start len : Nat) (hk : k < 26 := by decide) (hlen : start + len ≤ 5 := by decide) :=
    slice_reassembled g k start len hk hlen
  have whole (k : Nat) (hk : k < 26 := by decide) := group_reassembled g k hk
  ⟨(byte 0).trans (slice_eq_append (part 0 0 3) (whole 1)),
   (byte 1).trans (slice_eq_append (whole 2) (part 3 2 3)),
   (byte 2).trans (slice_eq_append (slice_eq_append (part 3 0 2) (whole 4)) (part 5 4 1)),
   (byte 3).trans (slice_eq_append (part 5 0 4) (part 6 1 4)),
   (byte 4).trans (slice_eq_append (slice_eq_append (part 6 0 1) (whole 7)) (part 8 3 2)),
   (byte 5).trans (slice_eq_append (part 8 0 3) (whole 9)),
   (byte 6).trans (slice_eq_append (whole 10) (part 11 2 3)),
   (byte 7).trans (slice_eq_append (slice_eq_append (part 11 0 2) (whole 12)) (part 13 4 1)),
   (byte 8).trans (slice_eq_append (part 13 0 4) (part 14 1 4)),
   (byte 9).trans (slice_eq_append (slice_eq_append (part 14 0 1) (whole 15)) (part 16 3 2)),
   (byte 10).trans (slice_eq_append (part 16 0 3) (whole 17)),
   (byte 11).trans (slice_eq_append (whole 18) (part 19 2 3)),
   (byte 12).trans (slice_eq_append (slice_eq_append (part 19 0 2) (whole 20)) (part 21 4 1)),
   (byte 13).trans (slice_eq_append (part 21 0 4) (part 22 1 4)),
   (byte 14).trans (slice_eq_append (slice_eq_append (part 22 0 1) (whole 23)) (part 24 3 2)),
   (byte 15).trans (slice_eq_append (part 24 0 3) (whole 25)),
   widened_valueOfGroups⟩

/-- Settles O25, by going through the 256 codes and the 32 groups. -/
theorem symbolMapperInClosedForm : Obligations.SymbolMapperInClosedForm :=
  ⟨by decide, val5_sym5, sym5_of_val5⟩

/-- Settles O22: the next state is ENC's effect, whose report is OK whatever VAL and SYM were. -/
theorem encWritesTheEncoding : Obligations.EncWritesTheEncoding := by
  refine ⟨rfl, fun s hrunning => ⟨effect .enc s, exec_running hrunning, fun k => ?_, effect_enc_val s,
    reports_effect .enc s, sameFaultRecord_effect .enc s, sameStream_effect .enc s, effect_draws s nofun⟩⟩
  simp [codecEncode, group, widened]

/-- Settles O26: what ENC leaves in SYM decodes to VAL, so it is legal and DEC succeeds on it. -/
theorem encProducesALegalSuffix : Obligations.EncProducesALegalSuffix := by
  intro s hrunning
  have hrunning' : Running (effect .enc s) := (faulted_effect .enc s).trans hrunning
  have hsym := effect_enc_sym s
  obtain ⟨u, hu, -, -, ⟨hkind, -⟩, -⟩ := exec_dec_running hrunning' (by rw [hsym, codecDecode_codecEncode])
  exact ⟨effect .enc s, u, exec_running hrunning, by rw [hsym]; exact legalSuffix_codecEncode s.val, hu, hkind⟩

/-- Settles O27: a legal suffix decodes to the value of its groups. -/
theorem decDecodesALegalSuffix : Obligations.DecDecodesALegalSuffix := by
  intro s hrunning hlegal
  obtain ⟨a, hd⟩ := (legalSuffix_iff_codecDecode s.sym).1 hlegal
  obtain ⟨hnone, -, rfl⟩ := codecDecode_eq_value hd
  have hall := (firstInvalid_eq_none_iff s.sym).1 hnone
  obtain ⟨t, ht, hval, hkept⟩ := exec_dec_running hrunning hd
  exact ⟨t, ht, ⟨groupsOf s.sym, fun k => val5_eq_groupsOf (hall k), hval⟩, hkept⟩

/-- Settles O28: the alphabet check finds `k`, and DEC reports it. -/
theorem decReportsTheLowestInvalidCharacter : Obligations.DecReportsTheLowestInvalidCharacter := by
  intro s k hrunning hinvalid hbefore
  have hfirst := (firstInvalid_eq_some_iff s.sym k).2 ⟨hinvalid, hbefore⟩
  exact exec_dec_running hrunning (codecDecode_of_firstInvalid hfirst)

/-- Settles O29: the code of the first symbol by `firstGroup_le_seven_iff`, what DEC does by the two ways in which a
string of symbols decodes. -/
theorem decReportsAnOverflow : Obligations.DecReportsAnOverflow := by
  intro s g hrunning hall hg
  obtain rfl : (groupsOf s.sym)[0] = g := Option.some.inj ((val5_eq_groupsOf (hall 0)).symm.trans hg)
  have hcode := firstGroup_le_seven_iff (hall 0)
  have hzero : 0x30 ≤ s.sym[0].toNat := zero_le_of_isSymbol (hall 0)
  refine ⟨seven_lt_iff_upperBits _, by omega, ?_⟩
  obtain ⟨hover, hd⟩ | ⟨hsmall, hd⟩ := codecDecode_of_symbols hall
  · obtain ⟨t, ht, hval, hsym, ⟨hkind, hreport⟩, hkept⟩ := exec_dec_running hrunning hd
    exact ⟨t, ht, iff_of_true hkind hover, fun _ => ⟨hval, hsym, ⟨hkind, hreport⟩, hkept⟩⟩
  · obtain ⟨t, ht, -, -, ⟨hkind, -⟩, -⟩ := exec_dec_running hrunning hd
    have hnot := Nat.not_lt.2 hsmall
    exact ⟨t, ht, iff_of_false (by simp [hkind, Decoding.report]) hnot, fun h => absurd h hnot⟩

/-- Settles O36: the three effects in order, and decoding undoes encoding. -/
theorem roundTripValueFirst : Obligations.RoundTripValueFirst := by
  refine ⟨codecDecode_codecEncode, fun v s hrunning => ⟨_, execAll_running _ hrunning, ?_⟩⟩
  simp [reportOf, Decoding.valueOr, Decoding.report]

/-- Settles O37: the three effects in order; a string that decodes is the encoding of its value, and another one leaves
VAL alone. -/
theorem roundTripStringFirst : Obligations.RoundTripStringFirst := by
  intro a s hrunning
  refine ⟨_, execAll_running _ hrunning, ?_⟩
  rw [legalSuffix_iff_codecDecode]
  cases hd : codecDecode a with
  | value v => simp [reportOf, hd, Decoding.valueOr, codecEncode_of_codecDecode hd]
  | invalidSuffixAlphabet _ _ => simp [reportOf, hd, Decoding.valueOr]
  | suffixOverflow _ => simp [reportOf, hd, Decoding.valueOr]

/-- Settles O38: each function undoes the other. -/
theorem encodingIsABijection : Obligations.EncodingIsABijection := by
  refine ⟨fun a b hab => by simpa using congrArg codecDecode hab, fun x => ⟨fun hx => ?_, ?_⟩⟩
  · obtain ⟨a, hd⟩ := (legalSuffix_iff_codecDecode x).1 hx
    exact ⟨a, codecEncode_of_codecDecode hd⟩
  · rintro ⟨a, rfl⟩
    exact legalSuffix_codecEncode a

end Sys2Proof.Machine
end

section
/-! SUPPORT. Proofs of the version-7 packer family: the fields of a packed value, what GEN and CHK7 leave, and the order
of values carried to the order of their strings (spec 42_v7_packer.md). -/

namespace Sys2Proof.Machine

/-! ### The two tagged bytes -/

/-- Byte 6 as GEN makes it: the version nibble over the low nibble of the random byte (R120). -/
theorem versionByte_nibbles : ∀ b : Byte,
    ((b &&& 0x0F#8) ||| 0x70#8).extractLsb' 4 4 = Config.versionNibble ∧
    ((b &&& 0x0F#8) ||| 0x70#8).extractLsb' 0 4 = b.extractLsb' 0 4 := by decide

/-- Byte 8 as GEN makes it: the variant bits over the low six bits of the random byte (R120). -/
theorem variantByte_fields : ∀ b : Byte,
    ((b &&& 0x3F#8) ||| 0x80#8).extractLsb' 6 2 = Config.variantBits ∧
    ((b &&& 0x3F#8) ||| 0x80#8).extractLsb' 0 6 = b.extractLsb' 0 6 := by decide

/-- The version test of a byte under its mask (R128). -/
theorem versionNibble_eq_mask : ∀ b : Byte,
    (b.extractLsb' 4 4 == Config.versionNibble) = (b &&& 0xF0#8 == 0x70#8) := by decide

/-- The variant test of a byte under its mask (R128). -/
theorem variantBits_eq_mask : ∀ b : Byte,
    (b.extractLsb' 6 2 == Config.variantBits) = (b &&& 0xC0#8 == 0x80#8) := by decide

/-- The version-7 predicate as two masked comparisons (R128). -/
theorem isV7_eq_masks (a : Value) :
    isV7 a = ((a[6] &&& 0xF0#8 == 0x70#8) && (a[8] &&& 0xC0#8 == 0x80#8)) := by
  rw [isV7, versionNibble_eq_mask, variantBits_eq_mask]

/-! ### The bytes of a packed value -/

/-- A byte of a value is a slice of its number (R9). -/
theorem slice_v128_byte (a : Value) (i : Nat) (hi : i < 16 := by decide) :
    (v128 a).extractLsb' (120 - 8 * i) 8 = a[i] := by
  rw [← bytes16_getElem _ i hi, bytes16_v128]

/-- A slice of the number of a value within one byte is that slice of the byte (R9). -/
theorem slice_v128 (a : Value) (i start len : Nat) (hi : i < 16 := by decide)
    (hlen : start + len ≤ 8 := by decide) :
    (v128 a).extractLsb' (120 - 8 * i + start) len = a[i].extractLsb' start len := by
  rw [← slice_v128_byte a i hi, slice_slice _ _ hlen]

section pack
variable (ts : BitVec 48) (r : RandomBytes)

/-- Bytes 0 to 5 are the timestamp, most significant byte first (R120). -/
theorem pack_timestampByte (i : Fin 6) : (pack ts r)[i.val]'(by omega) = ts.extractLsb' (40 - 8 * i.val) 8 := by
  fin_cases i <;> rfl

theorem pack_versionByte : (pack ts r)[6] = (r[0] &&& 0x0F#8) ||| 0x70#8 := rfl

theorem pack_variantByte : (pack ts r)[8] = (r[2] &&& 0x3F#8) ||| 0x80#8 := rfl

/-- Bytes 9 to 15 are random bytes 3 to 9 as they are (R120, R123). -/
theorem pack_tailByte (i : Fin 7) : (pack ts r)[9 + i.val]'(by omega) = r[3 + i.val]'(by omega) := by
  fin_cases i <;> rfl

/-- Whatever the two answers, the packed value is of version 7 (R130). -/
@[simp] theorem isV7_pack : isV7 (pack ts r) = true := by
  simp [isV7, pack_versionByte, pack_variantByte, versionByte_nibbles, variantByte_fields]

/-- The 48 most significant bits of a packed value are the timestamp: its six bytes joined again (R121). -/
theorem slice_pack_timestamp : (v128 (pack ts r)).extractLsb' 80 48 = ts :=
  have byte (i : Nat) (hi : i < 16 := by decide) := slice_v128_byte (pack ts r) i hi
  calc (v128 (pack ts r)).extractLsb' 80 48
      = ts.extractLsb' 40 8 ++ ts.extractLsb' 32 8 ++ ts.extractLsb' 24 8 ++ ts.extractLsb' 16 8 ++
          ts.extractLsb' 8 8 ++ ts.extractLsb' 0 8 :=
        slice_eq_append (slice_eq_append (slice_eq_append (slice_eq_append (slice_eq_append
          (byte 0) (byte 1)) (byte 2)) (byte 3)) (byte 4)) (byte 5)
    _ = ts.extractLsb' 0 48 :=
        (slice_eq_append (slice_eq_append (slice_eq_append (slice_eq_append (slice_eq_append
          rfl rfl) rfl) rfl) rfl) rfl).symm
    _ = ts := BitVec.extractLsb'_eq_self

/-- The timestamp is the number of a packed value without its 80 low bits (R121). -/
theorem toNat_v128_pack_div : (v128 (pack ts r)).toNat / 2 ^ 80 = ts.toNat := by
  have hlt := (v128 (pack ts r)).isLt
  have hts := congrArg BitVec.toNat (slice_pack_timestamp ts r)
  rw [BitVec.extractLsb'_toNat, Nat.shiftRight_eq_div_pow] at hts
  omega

end pack

/-! ### The order of digits -/

/-- One more digit in front. -/
theorem concatDigits_cons {w : Nat} (d : BitVec w) (ds : List (BitVec w)) :
    concatDigits (d :: ds) = d.toNat * 2 ^ (w * ds.length) + concatDigits ds := by
  induction ds using List.reverseRecOn with
  | nil => simp [concatDigits]
  | append_singleton ds e ih =>
    rw [← List.cons_append, concatDigits_append_singleton, concatDigits_append_singleton, ih,
      List.length_append, List.length_singleton, Nat.mul_succ, Nat.pow_add]
    ring

/-- Of two numbers with equally many digits the smaller one has the smaller digits, the first difference deciding. -/
theorem lt_of_concatDigits_lt {w : Nat} : ∀ {ds es : List (BitVec w)}, ds.length = es.length →
    concatDigits ds < concatDigits es → ds < es
  | [], [], _, h => absurd h (lt_irrefl _)
  | d :: ds, e :: es, hlength, h => by
    have hlength' : ds.length = es.length := Nat.succ.inj hlength
    have htail := concatDigits_lt es
    rw [concatDigits_cons, concatDigits_cons, hlength'] at h
    have hle : d.toNat ≤ e.toNat := by
      by_contra hgt
      have hstep := Nat.mul_le_mul_right (2 ^ (w * es.length)) (Nat.not_le.1 hgt)
      rw [Nat.succ_mul] at hstep
      omega
    rw [List.cons_lt_cons_iff]
    obtain hlt | heq := hle.lt_or_eq
    · exact .inl hlt
    · refine .inr ⟨BitVec.eq_of_toNat_eq heq, lt_of_concatDigits_lt hlength' ?_⟩
      rw [heq] at h
      exact Nat.lt_of_add_lt_add_left h

/-! ### The order of encodings -/

/-- The 26 groups of a value as digits, the first one the most significant (R94). -/
def groupDigits (a : Value) : List (BitVec 5) := List.ofFn fun k : Fin 26 => group (widened a) k.val

/-- The groups spell the value, whose two implicit bits are 0 (R93, R94). -/
theorem concatDigits_groupDigits (a : Value) : concatDigits (groupDigits a) = (v128 a).toNat := by
  have hlt : concatDigits (groupDigits a) < 2 ^ 130 := by simpa [groupDigits] using concatDigits_lt (groupDigits a)
  have hwhole := congrArg BitVec.toNat (reassembled_groups (widened a))
  rw [reassembled, Vector.toList_ofFn, ← groupDigits, BitVec.toNat_ofNat, Nat.mod_eq_of_lt hlt] at hwhole
  rw [hwhole, widened, BitVec.toNat_setWidth_of_le (by decide)]

/-- The characters of an encoding are the symbols of its groups (R95). -/
theorem codecEncode_toList (a : Value) : (codecEncode a).toList = (groupDigits a).map sym5 := by
  simp [codecEncode, groupDigits, Vector.toList_ofFn]

/-- The symbols' codes rise with the index (R90). -/
theorem sym5_strictMono : ∀ g h : BitVec 5, g < h → sym5 g < sym5 h := by decide

/-! ### The effects of GEN and CHK7 -/

/-- GEN leaves the value packed from the two answers of its draw (R122). -/
@[simp] theorem effect_gen_val (s : State) : (effect .gen s).val = pack (clockAnswer s) (randomAnswer s) := rfl

@[simp] theorem effect_gen_sym (s : State) : (effect .gen s).sym = s.sym := rfl

/-- GEN takes one draw (R28, R122). -/
@[simp] theorem effect_gen_draws (s : State) : (effect .gen s).draws = s.draws + 1 := rfl

@[simp] theorem effect_chk7_val (s : State) : (effect .chk7 s).val = s.val := rfl

@[simp] theorem effect_chk7_sym (s : State) : (effect .chk7 s).sym = s.sym := rfl

/-- A random byte of the answer is a slice of port RND at this draw (R28). -/
theorem randomAnswer_getElem (s : State) (k : Nat) (hk : k < 10) :
    (randomAnswer s)[k] = (Config.randomSource s.draws).extractLsb' (72 - 8 * k) 8 := by
  simp [randomAnswer, portBytes]

/-! ### The obligations -/

/-- Settles O30: the next state is GEN's effect, each byte of VAL by the layout of `pack` and of port RND. -/
theorem genPacksTheTwoAnswers : Obligations.GenPacksTheTwoAnswers := by
  refine ⟨rfl, fun s hrunning => ⟨effect .gen s, exec_running hrunning, pack_timestampByte _ _, ?_, ?_, ?_,
    fun i => ?_, effect_gen_sym s, reports_effect .gen s, sameFaultRecord_effect .gen s, sameStream_effect .gen s,
    effect_gen_draws s⟩⟩
  · simp [pack_versionByte, randomAnswer_getElem]
  · exact randomAnswer_getElem s 1 (by decide)
  · simp [pack_variantByte, randomAnswer_getElem]
  · simp only [effect_gen_val, pack_tailByte, randomAnswer_getElem]
    rw [show 72 - 8 * (3 + i.val) = 48 - 8 * i.val by omega]

/-- Settles O31, field by field: each is a slice of one byte, or made of whole neighbouring bytes. -/
theorem packedValueAsFields : Obligations.PackedValueAsFields := fun ts r =>
  have part (i start len : Nat) (hi : i < 16 := by decide) (hlen : start + len ≤ 8 := by decide) :=
    slice_v128 (pack ts r) i start len hi hlen
  have byte (i : Nat) (hi : i < 16 := by decide) := slice_v128_byte (pack ts r) i hi
  ⟨slice_pack_timestamp ts r,
   (part 6 4 4).trans (versionByte_nibbles r[0]).1,
   (part 6 0 4).trans (versionByte_nibbles r[0]).2,
   byte 7,
   (part 8 6 2).trans (variantByte_fields r[2]).1,
   (part 8 0 6).trans (variantByte_fields r[2]).2,
   slice_eq_append (slice_eq_append (slice_eq_append (slice_eq_append (slice_eq_append (slice_eq_append
     (byte 9) (byte 10)) (byte 11)) (byte 12)) (byte 13)) (byte 14)) (byte 15)⟩

/-- Settles O32: CHK7 reports `isV7` of what GEN left, a packed value. -/
theorem genThenChk7SetsP : Obligations.GenThenChk7SetsP := by
  refine ⟨isV7_pack, fun s hrunning => ⟨_, execAll_running _ hrunning, ?_⟩⟩
  simpa [reportOf] using reports_effect .chk7 (effect .gen s)

/-- Settles O33: the timestamp is what is left of the number without its 80 low bits. -/
theorem timestampOrderIsValueOrder : Obligations.TimestampOrderIsValueOrder := by
  intro ts1 ts2 r1 r2 hlt
  rw [BitVec.lt_def, ← toNat_v128_pack_div ts1 r1, ← toNat_v128_pack_div ts2 r2] at hlt
  exact Nat.lt_of_div_lt_div hlt

/-- Settles O34: the groups spell the two values, so they are in order, and the symbols rise with the groups. -/
theorem encodingKeepsTheOrder : Obligations.EncodingKeepsTheOrder := by
  intro a b hlt
  have hdigits : groupDigits a < groupDigits b := by
    refine lt_of_concatDigits_lt (by simp [groupDigits]) ?_
    rwa [concatDigits_groupDigits, concatDigits_groupDigits]
  rw [codecEncode_toList, codecEncode_toList]
  exact List.map_lt sym5_strictMono hdigits

/-- Settles O35: the next state is CHK7's effect, whose report holds `isV7` of VAL, the two masked comparisons. -/
theorem chk7TestsTheTwoFields : Obligations.Chk7TestsTheTwoFields := by
  refine ⟨rfl, fun s hrunning => ⟨effect .chk7 s, exec_running hrunning, ?_, effect_chk7_val s, effect_chk7_sym s,
    sameFaultRecord_effect .chk7 s, sameStream_effect .chk7 s, effect_draws s nofun⟩⟩
  rw [← isV7_eq_masks]
  exact reports_effect .chk7 s

end Sys2Proof.Machine
end

section
/-! SUPPORT. Proofs of the host family: splitting and assembling, the validator of prefixes and the parser as
exact conditions, and the hexadecimal form of a value (spec 45_host_contract.md). -/

namespace Sys2Proof.Machine

/-! ### Splitting and assembling -/

@[simp] theorem assemble_nil (suffix : List Byte) : assemble [] suffix = suffix := rfl

theorem assemble_of_ne_nil {p : List Byte} (h : p ≠ []) (suffix : List Byte) :
    assemble p suffix = p ++ underscore :: suffix := if_neg h

/-- Without an underscore the whole string is the suffix (R145). -/
theorem split_of_notMem {x : List Byte} (h : underscore ∉ x) : split x = ([], x) := by
  cases x with
  | nil => rfl
  | cons c more =>
    obtain ⟨hc, hmore⟩ := not_or.1 (mt List.mem_cons.2 h)
    simp [split, hmore, Ne.symm hc]

/-- The cut is at the underscore that no other follows (R145). -/
theorem split_append_underscore (p : List Byte) {suffix : List Byte} (h : underscore ∉ suffix) :
    split (p ++ underscore :: suffix) = (p, suffix) := by
  induction p with
  | nil => simp [split, h]
  | cons c p ih => simp [split, ih]

/-- Splitting undoes assembling (R144, R145). -/
theorem split_assemble (p : List Byte) {suffix : List Byte} (h : underscore ∉ suffix) :
    split (assemble p suffix) = (p, suffix) := by
  by_cases hp : p = []
  · rw [hp, assemble_nil, split_of_notMem h]
  · rw [assemble_of_ne_nil hp, split_append_underscore p h]

/-- A string holds no underscore, or there is a last one. -/
theorem underscore_cases (x : List Byte) :
    underscore ∉ x ∨ ∃ p suffix, underscore ∉ suffix ∧ x = p ++ underscore :: suffix := by
  induction x with
  | nil => exact .inl List.not_mem_nil
  | cons c more ih =>
    obtain hmore | ⟨p, suffix, hsuffix, rfl⟩ := ih
    · by_cases hc : c = underscore
      · exact .inr ⟨[], more, hmore, by rw [hc, List.nil_append]⟩
      · exact .inl (by simp [hmore, Ne.symm hc])
    · exact .inr ⟨c :: p, suffix, hsuffix, rfl⟩

/-- Assembling undoes splitting, unless the only underscore leads the string (R144, R145). -/
theorem assemble_split {x : List Byte} (h : underscore ∈ x → (split x).1 ≠ []) :
    assemble (split x).1 (split x).2 = x := by
  obtain hx | ⟨p, suffix, hsuffix, rfl⟩ := underscore_cases x
  · rw [split_of_notMem hx, assemble_nil]
  · rw [split_append_underscore p hsuffix] at h ⊢
    exact assemble_of_ne_nil (h (by simp)) suffix

/-- Only a leading underscore is split off with nothing before it (R145). -/
theorem split_fst_ne_nil {x : List Byte} (hmem : underscore ∈ x) (hhead : x.head? ≠ some underscore) :
    (split x).1 ≠ [] := by
  obtain hx | ⟨p, suffix, hsuffix, rfl⟩ := underscore_cases x
  · exact absurd hmem hx
  · rw [split_append_underscore p hsuffix]
    rintro rfl
    exact hhead rfl

/-! ### Prefixes -/

/-- The grammar of prefixes written out: no character, or letters and underscores between two letters (R143). -/
theorem prefixGrammar_iff (p : List Byte) :
    prefixGrammar p = true ↔ p = [] ∨ ((∃ c, p.head? = some c ∧ 0x61 ≤ c.toNat ∧ c.toNat ≤ 0x7A) ∧
      (∃ c, p.getLast? = some c ∧ 0x61 ≤ c.toNat ∧ c.toNat ≤ 0x7A) ∧
      ∀ c ∈ p, (0x61 ≤ c.toNat ∧ c.toNat ≤ 0x7A) ∨ c = 0x5F#8) := by
  cases p with
  | nil => simp [prefixGrammar]
  | cons c p => simp [prefixGrammar, isLowerLetter, underscore, List.getLast?_cons, and_assoc]

/-- Prefixes of the grammar hold no upper-case letter and do not begin with an underscore (R143). -/
theorem prefixGrammar_characters {p : List Byte} (h : prefixGrammar p = true) :
    (∀ c ∈ p, isUpperLetter c = false) ∧ p.head? ≠ some underscore := by
  have hnot : ∀ c : Byte, (0x61 ≤ c.toNat ∧ c.toNat ≤ 0x7A) ∨ c = 0x5F#8 → isUpperLetter c = false := by decide
  obtain rfl | ⟨⟨c, hc, hlow, -⟩, -, hall⟩ := (prefixGrammar_iff p).1 h
  · simp
  · refine ⟨fun d hd => hnot d (hall d hd), fun hunder => ?_⟩
    cases hc.symm.trans hunder
    exact absurd hlow (by decide)

/-- Valid prefixes are those of the grammar with at most 63 characters, and are accepted unchanged (R143). -/
theorem validatePrefix_eq_ok_iff (p q : List Byte) :
    validatePrefix (.text p) = .ok q ↔ p = q ∧ p.length ≤ 63 ∧ prefixGrammar p = true := by
  obtain ⟨hne, -⟩ | ⟨_, ⟨⟩, ⟨hlong, hp⟩ | ⟨hshort, hg, hp⟩ | ⟨-, hg, hp⟩⟩ := validatePrefix_cases (.text p)
  · exact absurd rfl (hne p)
  · simp [hp, Nat.not_le.2 hlong]
  · simp [hp, hshort, hg]
  · simp [hp, hg]

/-! ### Suffixes -/

/-- The characters of a legal suffix are symbols (R142). -/
theorem isSymbol_of_mem {v : Suffix} (h : LegalSuffix v) {c : Byte} (hc : c ∈ v.toList) : isSymbol c = true := by
  obtain ⟨hall, -, -⟩ := h
  obtain ⟨k, hk, rfl⟩ := Vector.getElem_of_mem (Vector.mem_toList_iff.1 hc)
  exact hall ⟨k, hk⟩

/-- No symbol is an upper-case letter (R90). -/
theorem isUpperLetter_of_isSymbol : ∀ c : Byte, isSymbol c = true → isUpperLetter c = false := by decide

/-- The underscore is no symbol (R90), so a legal suffix holds none. -/
theorem underscore_notMem_of_legalSuffix {v : Suffix} (h : LegalSuffix v) : underscore ∉ v.toList :=
  fun hmem => absurd (isSymbol_of_mem h hmem) (by decide)

@[simp] theorem head?_toList_suffix (v : Suffix) : v.toList.head? = some v[0] := by simp [List.head?_eq_getElem?]

/-- The suffixes of the wire grammar are the legal suffixes (R142). -/
theorem suffixGrammar_iff (t : List Byte) : suffixGrammar t = true ↔ ∃ v : Suffix, t = v.toList ∧ LegalSuffix v := by
  simp only [suffixGrammar, Bool.and_eq_true, beq_iff_eq, List.all_eq_true, decide_eq_true_eq,
    List.headD_eq_head?_getD]
  constructor
  · rintro ⟨⟨hlength, hall⟩, hfirst⟩
    obtain ⟨v, rfl⟩ : ∃ v : Suffix, t = v.toList := ⟨⟨t.toArray, by simpa using hlength⟩, rfl⟩
    exact ⟨v, rfl, fun k => hall _ (by simp), by simpa using hfirst⟩
  · rintro ⟨v, rfl, hv⟩
    have hall : ∀ c ∈ v.toList, isSymbol c = true := fun c => isSymbol_of_mem hv
    obtain ⟨-, hfirst⟩ := hv
    exact ⟨⟨by simp, hall⟩, by simpa using hfirst⟩

/-! ### Identifiers -/

/-- The wire grammar derives exactly what valid prefixes and legal suffixes assemble to (R142, R144). -/
theorem typeIdGrammar_iff (x : List Byte) :
    typeIdGrammar x = true ↔
      ∃ (p : List Byte) (v : Suffix), p.length ≤ 63 ∧ prefixGrammar p = true ∧ LegalSuffix v ∧
        x = assemble p v.toList := by
  simp only [typeIdGrammar, Bool.or_eq_true, Bool.and_eq_true, decide_eq_true_eq, bne_iff_ne, suffixGrammar_iff]
  constructor
  · rintro (⟨v, rfl, hv⟩ | ⟨⟨⟨⟨-, hne⟩, hlength⟩, hp⟩, v, hsuffix, hv⟩)
    · exact ⟨[], v, Nat.zero_le _, rfl, hv, rfl⟩
    · exact ⟨(split x).1, v, hlength, hp, hv, by rw [← hsuffix, assemble_split fun _ => hne]⟩
  · rintro ⟨p, v, hlength, hp, hv, rfl⟩
    by_cases hne : p = []
    · exact .inl ⟨v, by rw [hne, assemble_nil], hv⟩
    · have hmem : (assemble p v.toList).contains underscore = true := by simp [assemble_of_ne_nil hne]
      rw [split_assemble p (underscore_notMem_of_legalSuffix hv)]
      exact .inr ⟨⟨⟨⟨hmem, hne⟩, hlength⟩, hp⟩, v, rfl, hv⟩

/-- What valid prefixes and legal suffixes assemble to passes the first four checks (R146). -/
theorem assemble_checks {p : List Byte} {v : Suffix} (hlength : p.length ≤ 63) (hp : prefixGrammar p = true)
    (hv : LegalSuffix v) :
    (26 ≤ (assemble p v.toList).length ∧ (assemble p v.toList).length ≤ 90) ∧
    (assemble p v.toList).any isUpperLetter = false ∧ (assemble p v.toList).head? ≠ some underscore := by
  obtain ⟨hcase, hhead⟩ := prefixGrammar_characters hp
  have hsuffix : ∀ c ∈ v.toList, isUpperLetter c = false := fun c hc =>
    isUpperLetter_of_isSymbol c (isSymbol_of_mem hv hc)
  by_cases hne : p = []
  · subst hne
    have hfirst : v.toList.head? ≠ some underscore := fun h =>
      underscore_notMem_of_legalSuffix hv (List.mem_of_head? h)
    exact ⟨by simp, List.any_eq_false.2 (by simpa using hsuffix), hfirst⟩
  · rw [assemble_of_ne_nil hne]
    refine ⟨?_, List.any_eq_false.2 ?_, by rwa [List.head?_append_of_ne_nil _ hne]⟩
    · simp only [List.length_append, List.length_cons, Vector.length_toList]
      omega
    · intro c hc
      obtain hc | rfl | hc := by simpa only [List.mem_append, List.mem_cons] using hc
      · simp [hcase c hc]
      · decide
      · simp [hsuffix c hc]

/-! ### The parser -/

section parse
variable {x : List Byte}

theorem parse_invalidLength (h : x.length < 26 ∨ 90 < x.length) :
    parse (.text x) = .error (failWith .invalidLength (.text x)) := by
  rw [parse, if_pos h]

theorem parse_invalidCase (hlength : 26 ≤ x.length ∧ x.length ≤ 90) (hcase : x.any isUpperLetter = true) :
    parse (.text x) = .error (failWith .invalidCase (.text x)) := by
  rw [parse, if_neg (by omega), if_pos hcase]

theorem parse_leadingUnderscore (hlength : 26 ≤ x.length ∧ x.length ≤ 90) (hcase : x.any isUpperLetter = false)
    (hhead : x.head? = some underscore) : parse (.text x) = .error (failWith .leadingUnderscore (.text x)) := by
  rw [parse, if_neg (by omega), if_neg (by simp [hcase]), if_pos hhead]

/-- After the first four checks the two parts of the split are checked, the first one before the second (R146). -/
theorem parse_parts (hlength : 26 ≤ x.length ∧ x.length ≤ 90) (hcase : x.any isUpperLetter = false)
    (hhead : x.head? ≠ some underscore) :
    parse (.text x) = (validatePrefix (.text (split x).1)).bind fun p => parseSuffix x p (split x).2 := by
  rw [parse, if_neg (by omega), if_neg (by simp [hcase]), if_neg hhead]
  cases validatePrefix (.text (split x).1) <;> rfl

/-- A record is given only after the first four checks (R146, R147). -/
theorem checks_of_parse_eq_ok {parsed : ParsedTypeId} (h : parse (.text x) = .ok parsed) :
    (26 ≤ x.length ∧ x.length ≤ 90) ∧ x.any isUpperLetter = false ∧ x.head? ≠ some underscore := by
  have hlength : 26 ≤ x.length ∧ x.length ≤ 90 := by
    by_contra hlength
    cases (parse_invalidLength (x := x) (by omega)).symm.trans h
  have hcase : x.any isUpperLetter = false := by
    by_contra hcase
    cases (parse_invalidCase hlength (by simpa using hcase)).symm.trans h
  refine ⟨hlength, hcase, fun hhead => ?_⟩
  cases (parse_leadingUnderscore hlength hcase hhead).symm.trans h

end parse

/-- `takeVector` takes a vector's bytes back whole. -/
@[simp] theorem takeVector_toList {n : Nat} (v : Vector Byte n) : takeVector n v.toList = some (v, []) := by
  simpa using takeVector_append v []

/-- The last two steps give a record exactly where the suffix is a string that decodes (R146). -/
theorem parseSuffix_eq_ok_iff (typeid p suffix : List Byte) (parsed : ParsedTypeId) :
    parseSuffix typeid p suffix = .ok parsed ↔
      ∃ (v : Suffix) (a : Value), suffix = v.toList ∧ codecDecode v = .value a ∧
        parsed = { typePrefix := p, suffix := v, value := a, typeid := typeid } := by
  constructor
  · intro h
    obtain ⟨-, ht⟩ | ⟨v, rest, rfl, ht⟩ := takeVector_spec 26 suffix
    · simp [parseSuffix, ht] at h
    · cases rest with
      | cons c rest => simp [parseSuffix, ht] at h
      | nil =>
        cases hd : codecDecode v with
        | value a => exact ⟨v, a, List.append_nil _, hd, by simpa [parseSuffix, hd, eq_comm] using h⟩
        | invalidSuffixAlphabet k c => simp [parseSuffix, hd] at h
        | suffixOverflow c => simp [parseSuffix, hd] at h
  · rintro ⟨v, a, rfl, hd, rfl⟩
    simp [parseSuffix, hd]

/-- `parse` gives a record exactly for what valid prefixes and suffixes that decode assemble to (R146). -/
theorem parse_eq_ok_iff (x : List Byte) (parsed : ParsedTypeId) :
    parse (.text x) = .ok parsed ↔
      ∃ (p : List Byte) (v : Suffix) (a : Value), p.length ≤ 63 ∧ prefixGrammar p = true ∧
        codecDecode v = .value a ∧ x = assemble p v.toList ∧
        parsed = { typePrefix := p, suffix := v, value := a, typeid := x } := by
  constructor
  · intro h
    obtain ⟨hlength, hcase, hhead⟩ := checks_of_parse_eq_ok h
    rw [parse_parts hlength hcase hhead] at h
    cases hp : validatePrefix (.text (split x).1) with
    | error f => simp [hp, Except.bind] at h
    | ok q =>
      obtain ⟨rfl, hshort, hg⟩ := (validatePrefix_eq_ok_iff _ _).1 hp
      rw [hp] at h
      obtain ⟨v, a, hsuffix, hd, rfl⟩ := (parseSuffix_eq_ok_iff _ _ _ _).1 h
      have hx := assemble_split fun hmem => split_fst_ne_nil hmem hhead
      exact ⟨(split x).1, v, a, hshort, hg, hd, by rw [← hsuffix, hx], rfl⟩
  · rintro ⟨p, v, a, hshort, hg, hd, rfl, rfl⟩
    have hv := legalSuffix_of_codecDecode hd
    obtain ⟨hlength, hcase, hhead⟩ := assemble_checks hshort hg hv
    rw [parse_parts hlength hcase hhead, split_assemble p (underscore_notMem_of_legalSuffix hv),
      (validatePrefix_eq_ok_iff p p).2 ⟨rfl, hshort, hg⟩]
    exact (parseSuffix_eq_ok_iff _ _ _ _).2 ⟨v, a, rfl, hd, rfl⟩

/-! ### The hexadecimal form -/

/-- The codes of the digits of R151: `0` to `9` and `a` to `f`. -/
theorem hexCode_bounds : ∀ n : BitVec 4,
    (0x30 ≤ (hexCode n).toNat ∧ (hexCode n).toNat ≤ 0x39) ∨ (0x61 ≤ (hexCode n).toNat ∧ (hexCode n).toNat ≤ 0x66) := by
  decide

/-- A digit is read back as its nibble (R151). -/
@[simp] theorem hexNibble_hexCode : ∀ n : BitVec 4, hexNibble (hexCode n) = some n := by decide

/-- The two nibbles make the byte. -/
theorem nibbles_append : ∀ b : Byte, b.extractLsb' 4 4 ++ b.extractLsb' 0 4 = b := by decide

/-- The digits of bytes are read back as the bytes (R151). -/
theorem nibblePairs_hexCodes (bytes : List Byte) :
    nibblePairs (bytes.flatMap fun b => [hexCode (b.extractLsb' 4 4), hexCode (b.extractLsb' 0 4)]) = some bytes := by
  induction bytes with
  | nil => rfl
  | cons b bytes ih => simp [nibblePairs, ih, nibbles_append]

/-- Every character of the hexadecimal form is a digit's code (R151). -/
theorem exists_hexCode_of_mem {a : Value} {c : Byte} (h : c ∈ valueToHex a) : ∃ n, c = hexCode n := by
  obtain ⟨b, -, hc⟩ := List.mem_flatMap.1 h
  obtain rfl | rfl := List.mem_pair.1 hc
  · exact ⟨_, rfl⟩
  · exact ⟨_, rfl⟩

/-- The hexadecimal form holds no hyphen to drop (R151). -/
theorem valueToHex_filter (a : Value) : ((valueToHex a).filter fun c => c != 0x2D#8) = valueToHex a := by
  have hdigit : ∀ n : BitVec 4, (hexCode n != 0x2D#8) = true := by decide
  refine List.filter_eq_self.2 fun c hc => ?_
  obtain ⟨n, rfl⟩ := exists_hexCode_of_mem hc
  exact hdigit n

@[simp] theorem hexToValue_valueToHex (a : Value) : hexToValue (valueToHex a) = some a := by
  rw [hexToValue, valueToHex_filter, valueToHex, nibblePairs_hexCodes]
  simp

/-! ### The obligations -/

/-- Settles O49: prefixes may hold underscores, but the one put in is the last. -/
theorem splitUndoesAssemble : Obligations.SplitUndoesAssemble :=
  fun p _ hsuffix => split_assemble p hsuffix

/-- Settles O50: `encode(U)` decodes to `U`, so the parser gives the record of the parts. -/
theorem parseUndoesAssemble : Obligations.ParseUndoesAssemble := by
  intro p u hp
  obtain ⟨-, hshort, hg⟩ := (validatePrefix_eq_ok_iff p p).1 hp
  exact (parse_eq_ok_iff _ _).2 ⟨p, codecEncode u, u, hshort, hg, codecDecode_codecEncode u, rfl, rfl⟩

/-- Settles O51: one lemma for each check. -/
theorem parseChecksInTheStatedOrder : Obligations.ParseChecksInTheStatedOrder :=
  ⟨rfl, fun _ => rfl, fun _ => ⟨parse_invalidLength, parse_invalidCase, parse_leadingUnderscore⟩⟩

/-- Settles O52: both sides are what valid prefixes and legal suffixes assemble to, and the legal suffixes are those
that decode. -/
theorem parseAcceptsExactlyTheGrammar : Obligations.ParseAcceptsExactlyTheGrammar := by
  intro x
  rw [typeIdGrammar_iff]
  constructor
  · rintro ⟨parsed, h⟩
    obtain ⟨p, v, a, hshort, hg, hd, hx, -⟩ := (parse_eq_ok_iff x parsed).1 h
    exact ⟨p, v, hshort, hg, legalSuffix_of_codecDecode hd, hx⟩
  · rintro ⟨p, v, hshort, hg, hv, hx⟩
    obtain ⟨a, hd⟩ := (legalSuffix_iff_codecDecode v).1 hv
    exact ⟨_, (parse_eq_ok_iff x _).2 ⟨p, v, a, hshort, hg, hd, hx, rfl⟩⟩

/-- Settles O53: two digits a byte, each read back as its nibble. -/
theorem hexFormIsUndone : Obligations.HexFormIsUndone := by
  intro a
  refine ⟨by simp [valueToHex, List.length_flatMap], fun c hc => ?_, hexToValue_valueToHex a⟩
  obtain ⟨n, rfl⟩ := exists_hexCode_of_mem hc
  exact hexCode_bounds n

/-- Settles O54, by what the validator can answer, and `prefixGrammar_iff`. -/
theorem prefixValidatorChecksInTheStatedOrder : Obligations.PrefixValidatorChecksInTheStatedOrder := by
  refine ⟨rfl, fun _ => rfl, fun p hlong => ?_, fun p hshort => ?_, fun arg f hf => ?_, fun _ _ _ _ => rfl,
    fun _ _ => rfl⟩
  · obtain ⟨hne, -⟩ | ⟨_, ⟨⟩, ⟨-, hp⟩ | ⟨hshort, -⟩ | ⟨hshort, -⟩⟩ := validatePrefix_cases (.text p)
    · exact absurd rfl (hne p)
    · exact hp
    · omega
    · omega
  · obtain ⟨hne, -⟩ | ⟨_, ⟨⟩, ⟨hlong, -⟩ | ⟨-, hg, hp⟩ | ⟨-, hg, hp⟩⟩ := validatePrefix_cases (.text p)
    · exact absurd rfl (hne p)
    · omega
    · rw [if_pos ((prefixGrammar_iff p).1 hg)]
      exact hp
    · rw [if_neg (mt (prefixGrammar_iff p).2 (by simp [hg]))]
      exact ⟨_, hp, rfl, rfl, rfl⟩
  · obtain ⟨-, hp⟩ | ⟨p, rfl, ⟨-, hp⟩ | ⟨-, -, hp⟩ | ⟨-, -, hp⟩⟩ := validatePrefix_cases arg
    all_goals cases hp.symm.trans hf
    all_goals simp [failWith]

end Sys2Proof.Machine
end

section
/-! SUPPORT. Proofs of the exceptions family: the entry into the fault, what a faulted block does and how reset ends it,
tagged results, and a run that an illegal opcode ends (spec 60_exceptions.md, 70_reset_and_hazards.md R217). -/

namespace Sys2Proof.Machine

/-! ### The entry into the fault -/

/-- An opcode byte that implies no length, at a packet boundary, is one step: the byte alone is taken, and the fault
entered (R64, R66, R186). -/
theorem step_illegalOpcode {s : State} {op : Byte} {more : List HostInput} (h : Running s) (hreceived : s.received = [])
    (hop : packetLength op = none) (hinput : s.input = .byte op :: more) :
    step s = .next (takeFault op (consume more s)) := by
  have hmore := (splitAtReset_spec more).1
  have hdecode := decode_illegalOpcode hop (splitAtReset more).1
  obtain ⟨_, _, hd, -⟩ | ⟨_, _, hd, hs⟩ | ⟨hd, -⟩ := step_running_cases h
  all_goals
    rw [hreceived, hinput, splitAtReset_byte, List.nil_append, hdecode] at hd
    cases hd
  rw [hs, hinput, splitAtReset_byte, ← hmore]

/-- A faulted block is the outcome faulted, whatever the host still does (R217). -/
theorem runOutcome_faulted {s : State} (h : faulted s = true) : runOutcome s = some .faulted := by
  simp [runOutcome, h]

/-- After the entry no command executes and, with no reset to come, no step is taken (R25, R186, R187). -/
theorem takeFault_stops (op : Byte) (s : State) :
    (∀ i : Instr, exec i (takeFault op s) = .fault (.illegalCommand op)) ∧
    (∀ bytes : List Byte, s.input = bytes.map HostInput.byte →
      step (takeFault op s) = .fault (.illegalCommand op)) := by
  have hstops := faultedBlockExecutesNothing (takeFault op s) (faulted_takeFault op s)
  rwa [takeFault_stat, statFop_statFaulted] at hstops

/-- No opcode is recorded in the reset value of STAT (R30). -/
theorem statFop_zero : statFop 0#32 = 0x00#8 := by decide

/-! ### Tagged results -/

/-- A failed decoding leaves VAL (R96, R188). -/
theorem Decoding.valueOr_of_report_kind {d : Decoding} (h : d.report.kind ≠ 0#4) (old : Value) :
    d.valueOr old = old := by
  cases d with
  | value a => exact absurd rfl h
  | invalidSuffixAlphabet k c | suffixOverflow c => rfl

/-! ### Running on -/

/-- The first step of a run that goes on. -/
theorem runSteps_succ_of_step {s t : State} (h : step s = .next t) (n : Nat) : runSteps (n + 1) s = runSteps n t := by
  rw [runSteps, h]

/-- A run stays where a step stops, however many steps are left. -/
theorem runSteps_of_step_ne_next {s : State} (h : ∀ t, step s ≠ .next t) (n : Nat) : runSteps n s = s := by
  cases n with
  | zero => rfl
  | succ n =>
    rw [runSteps]
    split
    · exact absurd ‹_› (h _)
    · rfl
    · rfl

/-- A run of `m + n` steps is `n` steps from where `m` steps end. -/
theorem runSteps_add (m n : Nat) (s : State) : runSteps (m + n) s = runSteps n (runSteps m s) := by
  induction m generalizing s with
  | zero => rw [Nat.zero_add, runSteps]
  | succ m ih =>
    rw [Nat.succ_add]
    cases hs : step s with
    | next t => rw [runSteps_succ_of_step hs, runSteps_succ_of_step hs, ih]
    | fault f | refused r =>
      have hstop : ∀ t, step s ≠ .next t := by simp [hs]
      simp only [runSteps_of_step_ne_next hstop]

/-! ### The obligations -/

/-- Settles O12: no byte is no packet, so of the cases of a step only the one that changes nothing is left. -/
theorem idleBlockStaysAsItIs : Obligations.IdleBlockStaysAsItIs := by
  intro s hrunning hreceived hinput
  refine ⟨?_, runOutcome_completed hrunning hreceived hinput⟩
  obtain ⟨_, _, hd, -⟩ | ⟨_, _, hd, -⟩ | ⟨-, ⟨_, _, hreset, -⟩ | ⟨-, -, hs⟩ | ⟨-, hne, -⟩⟩ :=
    step_running_cases hrunning
  · simp [hreceived, hinput] at hd
  · simp [hreceived, hinput] at hd
  · simp [hinput] at hreset
  · exact hs
  · simp [hreceived, hinput] at hne

/-- Settles O14: the packets end in `effectAll`, the next step enters the fault on the illegal byte, and then the block
is stopped. -/
theorem illegalByteEndsTheRunFaulted : Obligations.IllegalByteEndsTheRunFaulted := by
  intro is op rest s hrunning hreceived hinput hop
  have hentry : step (consume (.byte op :: rest.map HostInput.byte) (effectAll is s)) =
      .next (takeFault op (consume (rest.map HostInput.byte) (effectAll is s))) :=
    step_illegalOpcode ((faulted_effectAll is s).trans hrunning) rfl (by simpa [opcodeAssigned] using hop) rfl
  have hrun : runSteps (is.length + 1) (hostSend (is.flatMap encode ++ op :: rest) s) =
      takeFault op (consume (rest.map HostInput.byte) (effectAll is s)) := by
    rw [hostSend_eq_consume hreceived hinput, List.map_append, runSteps_add, List.map_cons,
      runSteps_packets is _ hrunning, runSteps_succ_of_step hentry, runSteps]
  exact ⟨effectAll is s, _, execAll_running is hrunning, hrun, runOutcome_faulted (faulted_takeFault op _),
    statFop_statFaulted _ op, rfl, rfl, rfl, (takeFault_stops op _).2 rest rfl⟩

/-- Settles O16: the entry is `takeFault` of the byte taken, and a faulted block executes nothing. -/
theorem illegalOpcodeEntersTheFault : Obligations.IllegalOpcodeEntersTheFault := by
  intro s op more hrunning hreceived hop hinput
  have hstep := step_illegalOpcode hrunning hreceived ((packetLength_eq_none_iff op).2 hop) hinput
  exact ⟨takeFault op (consume more s), hstep, statFlt_statFaulted s.stat op, statFop_statFaulted s.stat op, rfl, rfl,
    by simp [Reports], rfl, rfl, rfl, takeFault_stops op (consume more s)⟩

/-- Settles O18: of the steps of a running block only the one on an illegal opcode sets FLT. -/
theorem onlyAnIllegalOpcodeFaults : Obligations.OnlyAnIllegalOpcodeFaults := by
  intro s hrunning
  obtain ⟨i, rest, -, hs⟩ | ⟨op, rest, hd, hs⟩ | ⟨-, ⟨-, more, -, hs⟩ | ⟨-, -, hs⟩ | ⟨-, -, hs⟩⟩ :=
    step_running_cases hrunning
  all_goals refine ⟨_, hs, fun hf => ?_⟩
  case inr.inl => exact ⟨rest, by simpa using hd⟩
  all_goals simp [hrunning] at hf

/-- Settles O19: the one step of a faulted block that answers a next state is reset. -/
theorem onlyResetLeavesTheFault : Obligations.OnlyResetLeavesTheFault := by
  intro s t hf hstep
  obtain ⟨bytes, presented, more, hinput, hs⟩ | ⟨-, -, hs⟩ := step_faulted_cases hf
  all_goals cases hs.symm.trans hstep
  exact ⟨⟨presented, by simp [hinput]⟩, faulted_applyReset more s, statFop_zero, rfl, rfl, rfl, rfl⟩

/-- Settles O41: only DEC ends in a tagged result, and a failed decoding leaves VAL. -/
theorem taggedResultChangesStatOnly : Obligations.TaggedResultChangesStatOnly := by
  intro i s t hexec hkind
  obtain ⟨-, rfl⟩ := (exec_eq_next_iff i s t).1 hexec
  rw [statKind_effect] at hkind
  obtain rfl := eq_dec_of_reportOf_kind hkind
  exact ⟨(effect_dec_val s).trans (Decoding.valueOr_of_report_kind hkind s.val), effect_dec_sym s,
    sameFaultRecord_effect .dec s, sameStream_effect .dec s, effect_draws s nofun⟩

end Sys2Proof.Machine
end

section
/-! SUPPORT. Proofs of the reset family: RST ends every state, and every run settles, by a measure that counts the bytes
held and the events to come (spec 70_reset_and_hazards.md R210, R211, R212, R216, R217). -/

namespace Sys2Proof.Machine

/-! ### What is still to be taken -/

/-- How much the block can still take: the bytes it holds of an unfinished packet and the host's bytes and events. -/
def pending (s : State) : Nat := s.received.length + s.input.length

/-- The measure, cut at the next RST: the bytes offered to the decoder, and the events from there on. -/
theorem pending_eq_split (s : State) :
    pending s = (s.received ++ (splitAtReset s.input).1).length + (splitAtReset s.input).2.length := by
  have hlength := congrArg List.length (splitAtReset_spec s.input).1
  rw [List.length_append, List.length_map] at hlength
  rw [pending, List.length_append]
  omega

@[simp] theorem pending_effect (i : Instr) (s : State) : pending (effect i s) = pending s := by simp [pending]
@[simp] theorem pending_takeFault (op : Byte) (s : State) : pending (takeFault op s) = pending s := rfl
@[simp] theorem pending_applyReset (rest : List HostInput) (s : State) : pending (applyReset rest s) = rest.length := by
  simp [pending]
@[simp] theorem pending_consume (rest : List HostInput) (s : State) : pending (consume rest s) = rest.length := by
  simp [pending]

/-- A packet has at least its opcode byte, so a command leaves fewer bytes than it was decoded from (R60, R64). -/
theorem length_lt_of_decode_command {i : Instr} {bytes rest : List Byte} (h : decode bytes = .command i rest) :
    rest.length < bytes.length := by
  rw [(decode_eq_command_iff i bytes rest).1 h, List.length_append, encode, List.length_cons]
  omega

/-- An illegal opcode byte is taken, and it alone (R64, R66). -/
theorem length_lt_of_decode_illegalOpcode {op : Byte} {bytes rest : List Byte}
    (h : decode bytes = .illegalOpcode op rest) : rest.length < bytes.length := by
  obtain ⟨_, _, -, hd⟩ | ⟨_, _, rfl, -, hd⟩ | ⟨hd, -⟩ := decode_cases bytes
  all_goals cases hd.symm.trans h
  exact Nat.lt_succ_self _

/-! ### Progress -/

/-- Progress (R216): a faulted block is stopped, or the step takes something, or it leads to a settled state
that answers itself from then on (R70). -/
theorem step_progress (s : State) :
    (faulted s = true ∧ ∀ t, step s ≠ .next t) ∨
    (∃ t, step s = .next t ∧ pending t < pending s) ∨
    (∃ t, step s = .next t ∧ step t = .next t ∧ runOutcome t ≠ none) := by
  cases hf : faulted s with
  | true =>
    obtain ⟨bytes, presented, more, hinput, hs⟩ | ⟨-, -, hs⟩ := step_faulted_cases hf
    · have hlt : pending (applyReset more s) < pending s := by
        rw [pending_applyReset, pending, hinput, List.length_append, List.length_cons]
        omega
      exact .inr (.inl ⟨_, hs, hlt⟩)
    · exact .inl ⟨rfl, by simp [hs]⟩
  | false =>
    have hsplit := pending_eq_split s
    have hinput := (splitAtReset_spec s.input).1
    obtain ⟨i, rest, hd, hs⟩ | ⟨op, rest, hd, hs⟩ |
      ⟨hd, ⟨_, more, hrst, hs⟩ | ⟨hend, hempty, hs⟩ | ⟨hend, hne, -⟩⟩ := step_running_cases hf
    · have hlt := length_lt_of_decode_command hd
      exact .inr (.inl ⟨_, hs, by simpa [hsplit] using hlt⟩)
    · have hlt := length_lt_of_decode_illegalOpcode hd
      exact .inr (.inl ⟨_, hs, by simpa [hsplit] using hlt⟩)
    · have hlt : pending (applyReset more s) < pending s := by
        rw [pending_applyReset, hsplit, hrst, List.length_cons]
        omega
      exact .inr (.inl ⟨_, hs, hlt⟩)
    · obtain ⟨hreceived, hbytes⟩ := List.append_eq_nil_iff.1 hempty
      have hnone : s.input = [] := by simpa [hend, hbytes] using hinput
      exact .inr (.inr ⟨s, hs, hs, by simp [runOutcome_completed hf hreceived hnone]⟩)
    · rw [hend, List.append_nil] at hinput
      obtain ⟨t, hs, -, -, -, -, -, -, hwaiting, hstays⟩ := unfinishedPacketWaits s _ hf hne hinput hd
      exact .inr (.inr ⟨t, hs, hstays, by simp [hwaiting]⟩)

/-! ### Settling -/

/-- A run stays in a state that its own step answers. -/
theorem runSteps_of_step_self {s : State} (h : step s = .next s) (n : Nat) : runSteps n s = s := by
  induction n with
  | zero => rfl
  | succ n ih => rw [runSteps_succ_of_step h, ih]

/-- Once the host has nothing more to do, the run has one of its three outcomes (R217). -/
theorem runOutcome_ne_none_of_input_nil {s : State} (h : s.input = []) : runOutcome s ≠ none := by
  rw [runOutcome, if_pos h]
  split_ifs <;> simp

/-- Enough steps settle a run: each takes something, or has settled it (R216, R217). -/
theorem runSteps_settles (n : Nat) (s : State) (h : pending s ≤ n) : runOutcome (runSteps n s) ≠ none := by
  induction n generalizing s with
  | zero =>
    have hinput : s.input = [] := List.eq_nil_of_length_eq_zero (by rw [pending] at h; omega)
    exact runOutcome_ne_none_of_input_nil hinput
  | succ n ih =>
    obtain ⟨hf, hstop⟩ | ⟨t, hs, hlt⟩ | ⟨t, hs, hstays, hsettled⟩ := step_progress s
    · rw [runSteps_of_step_ne_next hstop, runOutcome_faulted hf]
      nofun
    · rw [runSteps_succ_of_step hs]
      exact ih t (by omega)
    · rwa [runSteps_succ_of_step hs, runSteps_of_step_self hstays]

/-! ### The obligations -/

/-- Settles O4: the input is cut at the first RST, so of the cases of a step only reset is left, faulted or not. -/
theorem resetEndsEveryState : Obligations.ResetEndsEveryState := by
  intro s bytes presented more hinput hnopacket
  have hsplit : splitAtReset s.input = (bytes, .rst presented :: more) := by simp [hinput]
  cases hf : faulted s with
  | true =>
    obtain ⟨_, _, _, hcut, hs⟩ | ⟨_, hcut, -⟩ := step_faulted_cases hf
    · obtain ⟨-, -, rfl⟩ : _ ∧ _ ∧ more = _ := by simpa [hcut] using hsplit.symm
      exact hs
    · simp [hcut] at hsplit
  | false =>
    have hdecode := hnopacket.resolve_left (by simp [hf])
    obtain ⟨_, _, hd, -⟩ | ⟨_, _, hd, -⟩ | ⟨-, ⟨_, _, hrst, hs⟩ | ⟨hend, -⟩ | ⟨hend, -⟩⟩ := step_running_cases hf
    · simp [hsplit, hdecode] at hd
    · simp [hsplit, hdecode] at hd
    · obtain ⟨-, rfl⟩ : _ ∧ more = _ := by simpa [hsplit] using hrst
      exact hs
    · simp [hsplit] at hend
    · simp [hsplit] at hend

/-- Settles O15: the bound is the measure that every step lowers until the run has settled. -/
theorem everyRunSettles : Obligations.EveryRunSettles := fun s => runSteps_settles _ s le_rfl

end Sys2Proof.Machine
end
